-- ==== Sys2Proof/Word.lean ====
section
/-! DEFINITION. The widths of the machine's words (spec R7: XLEN, PC_BITS, SCRATCH_BITS, and the 3-bit register index of R18). -/

namespace Sys2Proof

/-- A memory byte, a general register, an address operand (R7: XLEN = ADDR_BITS = 8). -/
abbrev Byte := BitVec 8

/-- The program counter and the ALU scratch register (R7: PC_BITS = SCRATCH_BITS = 16). -/
abbrev Wide := BitVec 16

/-- A register index that passed the decoder's validation, 0 to 7 (R12, R18). -/
abbrev RegIdx := BitVec 3

end Sys2Proof
end

