-- ==== Sys2Proof/Config.lean ====
section
/-! DEFINITION. The sizes R7 fixes. The spec leaves no value free, so nothing here is opaque. -/

namespace Sys2Proof.Config

/-- `MEM_SIZE`, the bytes of memory; valid addresses are 0 to `MEM_SIZE - 1` (R7).
Every bounds test of the model takes the size as an argument, as R7 allows (any value from 1 to
256); the machine of `Machine/Step.lean` passes this value, the hardware's. Log entry 3. -/
def memSize : Nat := 256

/-- The sizes R7 allows a model's `MEM_SIZE` to take. -/
def ValidMemSize (n : Nat) : Prop := 1 ≤ n ∧ n ≤ 256

/-- `REG_COUNT` (R7): a register-index operand byte is valid when it is below this (R51, R58). -/
def regCount : Nat := 8

end Sys2Proof.Config
end

