-- ==== Sys2Proof/Syntax.lean ====
section
/-! DEFINITION. The instructions (one constructor per mnemonic of the opcode table), the operand-shape tags, and the lines of loader text. -/

namespace Sys2Proof

/-- The closed enumeration of R2: eight operations and the error class.
Operands stand in the order of the encoded bytes, destination first (R54). The ten INVALID rows of
the opcode table are one class with no operands (R102). -/
inductive Instr where
  /-- HALT: stop the machine (R100). -/
  | halt
  /-- NOP (R101). -/
  | nop
  /-- MOV_RR rd, rs: copy a register (R110). -/
  | movRr (rd rs : RegIdx)
  /-- MOV_RM addr, rs: store a register to memory (R120). -/
  | movRm (addr : Byte) (rs : RegIdx)
  /-- MOV_MR rd, addr: load a register from memory (R121). -/
  | movMr (rd : RegIdx) (addr : Byte)
  /-- ADD_RR rd, rs (R111). -/
  | addRr (rd rs : RegIdx)
  /-- SUB_RR rd, rs (R112). -/
  | subRr (rd rs : RegIdx)
  /-- JMP target: absolute jump (R130). -/
  | jmp (target : Byte)
  /-- The Invalid class: an opcode byte of 8 to 255, or a register-index byte above 7 (R58, R102). -/
  | invalid
  deriving DecidableEq, Repr

/-- The operand-shape tag of the in-flight record (R18). -/
inductive Shape where
  | none
  | regReg
  | regMem
  | memReg
  | imm
  deriving DecidableEq, Repr

/-- The first token of an instruction line of loader text (R64). -/
inductive Mnemonic where
  | HALT
  | NOP
  | MOV_RR
  | MOV_RM
  | MOV_MR
  | ADD_RR
  | SUB_RR
  | JMP
  /-- Any other token: "unrecognized mnemonics are skipped" (R65). -/
  | unrecognized
  deriving DecidableEq, Repr

/-- One line of loader text after tokenising (R62): how numbers are spelled is not in the spec
(D22), so a number is already a number here. -/
inductive Line where
  /-- A blank line or a line that begins with `#` (R62). -/
  | ignored
  /-- A register initialiser `R<reg> <value>` (R63). -/
  | init (reg value : Nat)
  /-- An instruction line `<MNEMONIC> [operand ...]` (R64). -/
  | instr (mnemonic : Mnemonic) (operands : List Nat)
  deriving DecidableEq, Repr

end Sys2Proof
end

