-- ==== Sys2Proof/Decode.lean ====
section
/-! DEFINITION. The opcode map, the decoder (total on any bytes), and after it the encoder. -/

namespace Sys2Proof

/-! ### The opcode map (R52): every opcode number stands here and nowhere else -/

/-- HALT = 0, given by the source (R52). -/
def opHalt : Byte := 0
/-- NOP = 1, the spec's inference D1 (R52). Log entry 4. -/
def opNop : Byte := 1
/-- MOV_RR = 2, given by the source (R52). -/
def opMovRr : Byte := 2
/-- MOV_RM = 3, the spec's inference D1 (R52). Log entry 4. -/
def opMovRm : Byte := 3
/-- MOV_MR = 4, the spec's inference D1 (R52). Log entry 4. -/
def opMovMr : Byte := 4
/-- ADD_RR = 5, the spec's inference D1 (R52). Log entry 4. -/
def opAddRr : Byte := 5
/-- SUB_RR = 6, the spec's inference D1 (R52). Log entry 4. -/
def opSubRr : Byte := 6
/-- JMP = 7, given by the source (R52). -/
def opJmp : Byte := 7
/-- The number of the Invalid class (R52). -/
def opInvalid : Byte := 8

/-- `classify` (R57): the whole byte is compared, no bit of it is ignored. -/
def classify (b : Byte) : Byte := if b < opInvalid then b else opInvalid

/-- `len` (R56), from an opcode number. Invalid has length 1, which no rule applies (C5); the
numbers above 8 are given the same (R85: "read literally with `len = 1`"). -/
def opLength (op : Byte) : Nat :=
  if op = opMovRr ∨ op = opMovRm ∨ op = opMovMr ∨ op = opAddRr ∨ op = opSubRr then 3
  else if op = opJmp then 2
  else 1

/-- The decoder's validation of a register-index byte: 0 to 7 or nothing, never masked (R58). -/
def regIndex (b : Byte) : Option RegIdx :=
  if b.toNat < Config.regCount then some (BitVec.ofNat 3 b.toNat) else none

/-! ### The decoder -/

/-- Why bytes decode to no instruction: there are too few of them. Every other sequence is one of
the eight operations or the Invalid class (R59, R61). -/
inductive DecodeReject where
  /-- No opcode byte: the program counter is outside memory (R141). -/
  | noOpcodeByte
  /-- An operand byte is missing: it would lie outside memory (R145). -/
  | operandByteMissing
  deriving DecidableEq, Repr

/-- The operand part of R61, for an opcode number 0 to 7: byte 1 is the destination, byte 2 the
source (R54); a bad register index gives Invalid (R58 item 2). -/
def decodeOperands (op b1 b2 : Byte) : Instr :=
  if op = opHalt then .halt
  else if op = opNop then .nop
  else if op = opMovRr then
    match regIndex b1, regIndex b2 with
    | some rd, some rs => .movRr rd rs
    | _, _ => .invalid
  else if op = opMovRm then
    match regIndex b2 with
    | some rs => .movRm b1 rs
    | none => .invalid
  else if op = opMovMr then
    match regIndex b1 with
    | some rd => .movMr rd b2
    | none => .invalid
  else if op = opAddRr then
    match regIndex b1, regIndex b2 with
    | some rd, some rs => .addRr rd rs
    | _, _ => .invalid
  else if op = opSubRr then
    match regIndex b1, regIndex b2 with
    | some rd, some rs => .subRr rd rs
    | _, _ => .invalid
  else if op = opJmp then .jmp b1
  else .invalid

/-- The decision procedure of R61 on the bytes from the opcode byte on: an unrecognised opcode byte
is Invalid and wants no operand (R47); then the missing-operand test; then the operands. -/
def decode : List Byte → Except DecodeReject Instr
  | [] => .error .noOpcodeByte
  | b0 :: operands =>
    if classify b0 = opInvalid then .ok .invalid
    else if operands.length + 1 < opLength (classify b0) then .error .operandByteMissing
    else .ok (decodeOperands (classify b0) (operands.getD 0 0) (operands.getD 1 0))

/-- Byte `j` (in address order) of a table word of `k` bytes: the opcode table puts byte 0 in the
most significant place ("byte0 * 65536 + byte1 * 256 + byte2", `30_encoding.md`). Log entry 11. -/
def tableByte (k w j : Nat) : Byte := BitVec.ofNat 8 (w / 2 ^ (8 * (k - 1 - j)))

/-- The three bytes, in address order, that a table word of `nbits` bits stands for, with zeros
after its own bytes. -/
def tableBytes (nbits w : Nat) : List Byte :=
  let k := (nbits + 7) / 8
  (List.range 3).map fun j => if j < k then tableByte k w j else 0

/-- The instruction the decoder reads from a word numbered as `opcode_table.json` numbers it. -/
def decodeTableWord (nbits w : Nat) : Option Instr :=
  match decode (tableBytes nbits w) with
  | .ok i => some i
  | .error _ => none

/-! ### The encoder (R51, R52, R54, R64) -/

/-- A register-index operand byte: bits 7:3 are 0 (R51). -/
def regByte (r : RegIdx) : Byte := r.setWidth 8

/-- The bytes of an instruction, in address order. The Invalid class has many byte sequences;
the encoder gives it the smallest opcode byte of the class, 8 (R52; log entry 13). -/
def encode : Instr → List Byte
  | .halt => [opHalt]
  | .nop => [opNop]
  | .movRr rd rs => [opMovRr, regByte rd, regByte rs]
  | .movRm addr rs => [opMovRm, addr, regByte rs]
  | .movMr rd addr => [opMovMr, regByte rd, addr]
  | .addRr rd rs => [opAddRr, regByte rd, regByte rs]
  | .subRr rd rs => [opSubRr, regByte rd, regByte rs]
  | .jmp target => [opJmp, target]
  | .invalid => [opInvalid]

/-- The opcode number of an instruction (R52). -/
def Instr.opcode : Instr → Byte
  | .halt => opHalt
  | .nop => opNop
  | .movRr _ _ => opMovRr
  | .movRm _ _ => opMovRm
  | .movMr _ _ => opMovMr
  | .addRr _ _ => opAddRr
  | .subRr _ _ => opSubRr
  | .jmp _ => opJmp
  | .invalid => opInvalid

/-- The byte length of an instruction: the table of R50. -/
def Instr.length (i : Instr) : Nat := opLength i.opcode

end Sys2Proof
end

