-- ==== Sys2Proof/Machine/State.lean ====
section
/-! DEFINITION. The state (exactly the seven elements of R10), its reset value, and the other plain data of a step: faults, notifications, replies, observations. -/

namespace Sys2Proof.Machine

/-- The memory (R30): the bytes that are not 0, by strictly rising address. A byte that is not
listed reads as its reset value 0 (R22). -/
abbrev Memory := List Host.Cell

/-- The five stages, in their cyclic order (R17). -/
inductive Stage where
  | fetch
  | decode
  | execute
  | memory
  | writeback
  deriving DecidableEq, Repr

/-- The in-flight instruction record (R18). `op` is the raw opcode byte after Fetch and the opcode
number 0 to 8 after Decode. -/
structure Inflight where
  op : Byte
  shape : Shape
  rd : RegIdx
  rs : RegIdx
  imm : Byte
  deriving DecidableEq, Repr

/-- Every field at its default (R18). -/
def Inflight.default : Inflight := ⟨0, .none, 0, 0, 0⟩

/-- The machine state: exactly the seven elements of R10. -/
structure State where
  /-- `mem[0..255]` (R30). -/
  mem : Memory
  /-- `x[0..7]` (R11). -/
  regs : Vector Byte 8
  /-- `pc` (R13). -/
  pc : Wide
  /-- `halted` (R16). -/
  halted : Bool
  /-- `stage` (R17). -/
  stage : Stage
  /-- `inflight` (R18, R19). -/
  inflight : Inflight
  /-- `scratch` (R20). -/
  scratch : Wide
  deriving DecidableEq, Repr

/-- The state right after reset: every value is the spec's own (R22, R170). -/
def State.reset : State where
  mem := []
  regs := Vector.replicate 8 0
  pc := 0
  halted := false
  stage := .fetch
  inflight := Inflight.default
  scratch := 0

/-- The five faults of R140. Each is fatal: the tick that raises it sets `halted` (R147). -/
inductive FaultName where
  /-- Label (a), raised by Fetch (R141). -/
  | pcOutOfRange
  /-- Label (b), raised by the Memory stage of MOV_RM and MOV_MR (R142). -/
  | dataAddressOutOfRange
  /-- Label (c), raised by the Writeback stage of JMP (R143). -/
  | jumpTargetOutOfRange
  /-- Label (d), raised by Execute (R144). -/
  | invalidOpcode
  /-- Label (e), raised by Decode (R145). -/
  | operandFetchOutOfRange
  deriving DecidableEq, Repr

/-- The notification `notify(F, info)`: a fault's name and one number (R152). -/
structure Notice where
  fault : FaultName
  info : Nat
  deriving DecidableEq, Repr

/-- What a tick (or an instruction) gives: the new state, and the notification it emits, which is
an output and no part of the state (R27, R152). -/
structure Reply where
  state : State
  notice : Option Notice
  deriving DecidableEq, Repr

/-- What `observe` returns (R25): registers, `pc`, memory and `halted`; the rest is hidden. -/
structure Observation where
  regs : Vector Byte 8
  pc : Wide
  mem : Memory
  halted : Bool
  deriving DecidableEq, Repr

/-- Why a machine stopped, as a host can infer it from the final observation (R152). -/
inductive StopCause where
  | haltInstruction
  | fault (f : FaultName)
  /-- The observation does not show the cause. -/
  | notInferable
  deriving DecidableEq, Repr

/-- The reasons a step could end without a next state: none. Every fault of this hardware is a
change of state (`halted <- 1`, R147) and every tick is defined (R71, R85), so no step of the model
ends in a fault of the host's kind (log entry 2). Nobody raises one: safe. -/
inductive Fault where
  deriving DecidableEq, Repr

/-- The reasons the model would give an instruction no meaning. -/
inductive Refusal where
  /-- An arm of `exec` that has no meaning yet. No arm raises it in this model: safe. -/
  | notModelled (mnemonic : String)
  deriving DecidableEq, Repr

end Sys2Proof.Machine
end

