-- ==== Sys2Proof/Machine/Flags.lean ====
section
/-! DEFINITION. The one flag of the machine, `halted`. There are no condition codes: no instruction computes a carry, borrow, overflow, zero or sign flag (R21). -/

namespace Sys2Proof.Machine

/-- `halted <- 1` (R16). Nothing but reset clears it. -/
def State.halt (s : State) : State := { s with halted := true }

/-- The machine is stopped for good; the run has ended exactly then (R16, R179). -/
def State.ended (s : State) : Bool := s.halted

end Sys2Proof.Machine
end

