-- ==== Sys2Proof/Machine/Ops.lean ====
section
/-! DEFINITION. The named operations over memory, registers, the program counter and the stage, the bounds test, and raising a fault. -/

namespace Sys2Proof.Machine

/-! ### Bounds -/

/-- The bounds rule: an address is within bounds exactly when it is below `MEM_SIZE` (R38). Both
numbers are exact integers: nothing wraps and nothing is clamped (R31, R15). -/
def inBounds (n a : Nat) : Bool := a < n

/-! ### Memory -/

/-- `MemRead(a, 1)` (R8). A byte nothing has written reads 0 (R22, R40 item 3). -/
def Memory.read : Memory → Nat → Byte
  | [], _ => 0
  | (b, w) :: rest, a => if a = b then w else Memory.read rest a

/-- `MemWrite(a, 1, v)` (R8), in canonical form: addresses rise, and a 0 is not listed. -/
def Memory.write : Memory → Nat → Byte → Memory
  | [], a, v => if v = 0 then [] else [(a, v)]
  | (b, w) :: rest, a, v =>
    if a < b then (if v = 0 then (b, w) :: rest else (a, v) :: (b, w) :: rest)
    else if a = b then (if v = 0 then rest else (a, v) :: rest)
    else (b, w) :: Memory.write rest a v

/-- The canonical form from address `lo` up, inside a memory of `n` bytes. -/
def Memory.wfFrom (n : Nat) : Nat → Memory → Bool
  | _, [] => true
  | lo, (a, v) :: rest => decide (lo ≤ a) && decide (a < n) && decide (v ≠ 0) && Memory.wfFrom n (a + 1) rest

/-- The canonical form in a memory of `n` bytes: strictly rising addresses below `n`, no entry 0. -/
def Memory.wfAt (n : Nat) (m : Memory) : Bool := Memory.wfFrom n 0 m

/-- The canonical form in the hardware's memory. -/
def Memory.wf (m : Memory) : Bool := Memory.wfAt Config.memSize m

/-- The byte at address `a`. -/
def State.readByte (s : State) (a : Nat) : Byte := s.mem.read a

/-- Store one byte. -/
def State.storeByte (s : State) (a : Nat) (v : Byte) : State := { s with mem := s.mem.write a v }

/-! ### Registers: eight equal ones, none hardwired (R11) -/

/-- `x[r]` (R8). -/
def State.readReg (s : State) (r : RegIdx) : Byte := s.regs[r.toNat]

/-- `x[r] <- v` (R8). -/
def State.writeReg (s : State) (r : RegIdx) (v : Byte) : State :=
  { s with regs := s.regs.set r.toNat v }

/-! ### The other elements -/

/-- Put a decoded instruction in the in-flight record (R19). -/
def State.capture (s : State) (i : Inflight) : State := { s with inflight := i }

/-- Write the ALU scratch register (R20). -/
def State.setScratch (s : State) (v : Wide) : State := { s with scratch := v }

/-- Write the stage register (R17). -/
def State.goTo (s : State) (st : Stage) : State := { s with stage := st }

/-- `pc <- t` (R8). -/
def State.setPc (s : State) (t : Wide) : State := { s with pc := t }

/-- `pc <- (pc + k) mod 65536`: the sequential advance of Writeback (R76). -/
def State.advancePc (s : State) (k : Nat) : State := { s with pc := s.pc + BitVec.ofNat 16 k }

/-! ### Replies: completing quietly, and raising a fault -/

/-- A new state with no notification. -/
def Reply.quiet (s : State) : Reply := ⟨s, none⟩

/-- `raise F(info)` (R8, R147): `halted <- 1`, one notification, and nothing else. Nothing is saved
and control goes nowhere: there is no handler, no vector and no return from a fault (R147, R149),
so there is no operation that returns. -/
def Reply.raise (f : FaultName) (info : Nat) (s : State) : Reply := ⟨s.halt, some ⟨f, info⟩⟩

end Sys2Proof.Machine
end

