-- ==== Sys2Proof/Machine/Operands.lean ====
section
/-! DEFINITION. Operands: widening and narrowing, the routing of operand bytes into the in-flight record, the one addressing mode, and the ALU. -/

namespace Sys2Proof.Machine

/-- `zext_16` of a byte (R8). -/
def zext16 (b : Byte) : Wide := b.setWidth 16

/-- `v[7:0]` (R8): what Writeback puts in a register (R20). -/
def lowByte (v : Wide) : Byte := v.setWidth 8

/-- The one addressing mode: absolute, `EA = zext_16(addr)` (R122, R55), as a memory address. -/
def effectiveAddress (addr : Byte) : Nat := (zext16 addr).toNat

/-- The operand-shape tag of an opcode number (R53). -/
def shapeOf (op : Byte) : Shape :=
  if op = opMovRr ∨ op = opAddRr ∨ op = opSubRr then .regReg
  else if op = opMovRm then .regMem
  else if op = opMovMr then .memReg
  else if op = opJmp then .imm
  else .none

/-- The in-flight record after the Decode tick: byte 1 is the destination, byte 2 the source, and
fields the instruction does not use keep the default Fetch gave them (R54). -/
def inflightOf : Instr → Inflight
  | .halt => { Inflight.default with op := opHalt }
  | .nop => { Inflight.default with op := opNop }
  | .movRr rd rs => { Inflight.default with op := opMovRr, shape := .regReg, rd := rd, rs := rs }
  | .movRm addr rs => { Inflight.default with op := opMovRm, shape := .regMem, imm := addr, rs := rs }
  | .movMr rd addr => { Inflight.default with op := opMovMr, shape := .memReg, rd := rd, imm := addr }
  | .addRr rd rs => { Inflight.default with op := opAddRr, shape := .regReg, rd := rd, rs := rs }
  | .subRr rd rs => { Inflight.default with op := opSubRr, shape := .regReg, rd := rd, rs := rs }
  | .jmp target => { Inflight.default with op := opJmp, shape := .imm, imm := target }
  | .invalid => { Inflight.default with op := opInvalid }

/-- The in-flight record after the Fetch tick: the raw opcode byte, all other fields at their
defaults (R72). -/
def fetchedInflight (b : Byte) : Inflight := { Inflight.default with op := b }

/-! ### The ALU (R82): a 16-bit result, no flags (R21) -/

/-- Pass: the source value (R82). -/
def aluPass (b : Byte) : Wide := zext16 b

/-- Add: an integer 0 to 510, not reduced to 8 bits (R82, R20). -/
def aluAdd (a b : Byte) : Wide := zext16 a + zext16 b

/-- Subtract, destination minus source, modulo 65536 (R82, R20). -/
def aluSub (a b : Byte) : Wide := zext16 a - zext16 b

/-- The ALU as one block: a result for MOV_RR, ADD_RR, SUB_RR and JMP, nothing for the other
opcodes (R82). -/
def alu (op a b imm : Byte) : Option Wide :=
  if op = opMovRr then some (aluPass b)
  else if op = opAddRr then some (aluAdd a b)
  else if op = opSubRr then some (aluSub a b)
  else if op = opJmp then some (aluPass imm)
  else none

/-- Writeback's register write: `x[rd] <- scratch[7:0]` (R76, R83). -/
def State.commit (s : State) (rd : RegIdx) : State := s.writeReg rd (lowByte s.scratch)

end Sys2Proof.Machine
end

