-- ==== Sys2Proof/Machine/Alu.lean ====
section
/-! DEFINITION. MOV_RR, ADD_RR and SUB_RR (R110 to R112): Execute puts the ALU result in `scratch`, Writeback commits its low byte and adds 3 to `pc`. -/

namespace Sys2Proof.Machine

/-- The shared end of the three: the result through `scratch` into `x[rd]`, then the advance. -/
def aluFinish (s : State) (rd : RegIdx) (result : Wide) : Reply :=
  .quiet ((((s.setScratch result).commit rd).advancePc 3).goTo .fetch)

/-- MOV_RR (R110): `x[rd] <- x[rs]`, `pc <- pc + 3`. -/
def movRrReply (rd rs : RegIdx) (s : State) : Reply :=
  aluFinish (s.capture (inflightOf (.movRr rd rs))) rd (aluPass (s.readReg rs))

/-- MOV_RR on the machine. -/
def execMovRr (rd rs : RegIdx) (s : State) : Host.Outcome State Fault Refusal :=
  .next (movRrReply rd rs s).state

/-- ADD_RR (R111): `x[rd] <- (x[rd] + x[rs]) mod 256`, `pc <- pc + 3`; both reads see the old
values. -/
def addRrReply (rd rs : RegIdx) (s : State) : Reply :=
  aluFinish (s.capture (inflightOf (.addRr rd rs))) rd (aluAdd (s.readReg rd) (s.readReg rs))

/-- ADD_RR on the machine. -/
def execAddRr (rd rs : RegIdx) (s : State) : Host.Outcome State Fault Refusal :=
  .next (addRrReply rd rs s).state

/-- SUB_RR (R112): `x[rd] <- (x[rd] - x[rs]) mod 256`, `pc <- pc + 3`. -/
def subRrReply (rd rs : RegIdx) (s : State) : Reply :=
  aluFinish (s.capture (inflightOf (.subRr rd rs))) rd (aluSub (s.readReg rd) (s.readReg rs))

/-- SUB_RR on the machine. -/
def execSubRr (rd rs : RegIdx) (s : State) : Host.Outcome State Fault Refusal :=
  .next (subRrReply rd rs s).state

end Sys2Proof.Machine
end

