-- ==== Sys2Proof/Machine/Jump.lean ====
section
/-! DEFINITION. JMP (R130), the only control transfer (R131), for a memory of `n` bytes and on the machine. -/

namespace Sys2Proof.Machine

/-- JMP (R130): Execute puts the target in `scratch`, Writeback tests it and commits it to `pc`
with no length added; out of bounds, the fault (R143), `stage` stays Writeback, `pc` unchanged. -/
def jmpReply (n : Nat) (target : Byte) (s : State) : Reply :=
  let c := (s.capture (inflightOf (.jmp target))).setScratch (aluPass target)
  if inBounds n c.scratch.toNat then .quiet ((c.setPc c.scratch).goTo .fetch)
  else .raise .jumpTargetOutOfRange c.scratch.toNat (c.goTo .writeback)

/-- JMP on the machine. -/
def execJmp (target : Byte) (s : State) : Host.Outcome State Fault Refusal :=
  .next (jmpReply Config.memSize target s).state

end Sys2Proof.Machine
end

