-- ==== Sys2Proof/Machine/LoadStore.lean ====
section
/-! DEFINITION. MOV_RM (store) and MOV_MR (load) (R120, R121), for a memory of `n` bytes and on the machine. -/

namespace Sys2Proof.Machine

/-- The data-address fault of the Memory stage (R142): `stage` stays Memory, nothing is accessed. -/
def dataFault (addr : Byte) (s : State) : Reply :=
  .raise .dataAddressOutOfRange (effectiveAddress addr) (s.goTo .memory)

/-- MOV_RM (R120): `mem[addr] <- x[rs]`, `pc <- pc + 3`; out of bounds, the fault (R142). -/
def movRmReply (n : Nat) (addr : Byte) (rs : RegIdx) (s : State) : Reply :=
  let c := s.capture (inflightOf (.movRm addr rs))
  if inBounds n (effectiveAddress addr) then
    .quiet (((c.storeByte (effectiveAddress addr) (s.readReg rs)).advancePc 3).goTo .fetch)
  else dataFault addr c

/-- MOV_RM on the machine. -/
def execMovRm (addr : Byte) (rs : RegIdx) (s : State) : Host.Outcome State Fault Refusal :=
  .next (movRmReply Config.memSize addr rs s).state

/-- MOV_MR (R121): the byte goes to `scratch` at the Memory stage and to `x[rd]` at Writeback,
`pc <- pc + 3`; out of bounds, the fault (R142). -/
def movMrReply (n : Nat) (rd : RegIdx) (addr : Byte) (s : State) : Reply :=
  let c := s.capture (inflightOf (.movMr rd addr))
  if inBounds n (effectiveAddress addr) then
    .quiet ((((c.setScratch (zext16 (s.readByte (effectiveAddress addr)))).commit rd).advancePc 3).goTo .fetch)
  else dataFault addr c

/-- MOV_MR on the machine. -/
def execMovMr (rd : RegIdx) (addr : Byte) (s : State) : Host.Outcome State Fault Refusal :=
  .next (movMrReply Config.memSize rd addr s).state

end Sys2Proof.Machine
end

