-- ==== Sys2Proof/Machine/System.lean ====
section
/-! DEFINITION. HALT, NOP and the Invalid class (R100 to R102). Each reply is the net effect of the instruction's ticks, hidden state included. -/

namespace Sys2Proof.Machine

/-- HALT (R100): `halted <- 1` at Execute, which still moves to Memory (R74, R77); `pc` keeps the
address of the HALT byte. Not a fault: no notification (R146). -/
def haltReply (s : State) : Reply :=
  .quiet (((s.capture (inflightOf .halt)).halt).goTo .memory)

/-- HALT on the machine. -/
def execHalt (s : State) : Host.Outcome State Fault Refusal := .next (haltReply s).state

/-- NOP (R101): five ticks that do nothing but advance `pc` by 1. -/
def nopReply (s : State) : Reply :=
  .quiet (((s.capture (inflightOf .nop)).advancePc 1).goTo .fetch)

/-- NOP on the machine. -/
def execNop (s : State) : Host.Outcome State Fault Refusal := .next (nopReply s).state

/-- INVALID (R102, R144): the fault InvalidOpcode at Execute, which moves to Memory; it reports the
raw opcode byte at `pc`; `pc`, registers, memory and `scratch` are unchanged. -/
def invalidReply (s : State) : Reply :=
  .raise .invalidOpcode (s.readByte s.pc.toNat).toNat ((s.capture (inflightOf .invalid)).goTo .memory)

/-- INVALID on the machine. -/
def execInvalid (s : State) : Host.Outcome State Fault Refusal := .next (invalidReply s).state

end Sys2Proof.Machine
end

