-- ==== Sys2Proof/Machine/Dispatch.lean ====
section
/-! DEFINITION. One arm per constructor of Instr: the instruction-level function of R80 once the instruction is decoded. -/

namespace Sys2Proof.Machine

def exec (i : Instr) (s : State) : Host.Outcome State Fault Refusal :=
  match i with
  | .halt => Sys2Proof.Machine.execHalt s
  | .nop => Sys2Proof.Machine.execNop s
  | .movRr rd rs => Sys2Proof.Machine.execMovRr rd rs s
  | .movRm addr rs => Sys2Proof.Machine.execMovRm addr rs s
  | .movMr rd addr => Sys2Proof.Machine.execMovMr rd addr s
  | .addRr rd rs => Sys2Proof.Machine.execAddRr rd rs s
  | .subRr rd rs => Sys2Proof.Machine.execSubRr rd rs s
  | .jmp target => Sys2Proof.Machine.execJmp target s
  | .invalid => Sys2Proof.Machine.execInvalid s

end Sys2Proof.Machine
end

