-- ==== Sys2Proof/Machine/Stages.lean ====
section
/-! DEFINITION. The five-stage engine, tick by tick (R70 to R77, R84, R85), for a memory of `n` bytes and on the machine. -/

namespace Sys2Proof.Machine

/-- The successor of a stage: cyclic, Writeback is followed by Fetch (R17). -/
def Stage.successor : Stage → Stage
  | .fetch => .decode
  | .decode => .execute
  | .execute => .memory
  | .memory => .writeback
  | .writeback => .fetch

/-- Fetch (R72): the bounds test on `pc`, the opcode byte into `inflight`, its other fields reset. -/
def fetchStage (n : Nat) (s : State) : Reply :=
  if inBounds n s.pc.toNat then
    .quiet ((s.capture (fetchedInflight (s.readByte s.pc.toNat))).goTo .decode)
  else .raise .pcOutOfRange s.pc.toNat s

/-- The lowest of `pc + 1`, `pc + 2` at or above `MEM_SIZE`, when the last operand byte is (R145). -/
def firstOutside (n : Nat) (pc : Wide) : Nat :=
  if inBounds n (pc.toNat + 1) then pc.toNat + 2 else pc.toNat + 1

/-- The bounds test of Decode for the last operand byte; it is made for an opcode of length 2 or 3
only (R73, R145, R47). -/
def operandsInBounds (n : Nat) (pc : Wide) (len : Nat) : Bool :=
  len < 2 || inBounds n (pc.toNat + len - 1)

/-- The part of Decode that routes the operand bytes (R73, R54). A bad register index makes the
instruction Invalid and leaves the operand fields as they are (R58). -/
def routeOperands (f : Inflight) (op b1 b2 : Byte) : Inflight :=
  if op = opMovRr ∨ op = opAddRr ∨ op = opSubRr then
    match regIndex b1, regIndex b2 with
    | some rd, some rs => { f with op := op, shape := .regReg, rd := rd, rs := rs }
    | _, _ => { f with op := opInvalid }
  else if op = opMovRm then
    match regIndex b2 with
    | some rs => { f with op := op, shape := .regMem, imm := b1, rs := rs }
    | none => { f with op := opInvalid }
  else if op = opMovMr then
    match regIndex b1 with
    | some rd => { f with op := op, shape := .memReg, rd := rd, imm := b2 }
    | none => { f with op := opInvalid }
  else if op = opJmp then { f with op := op, shape := .imm, imm := b1 }
  else { f with op := op }

/-- Decode (R73): classify; the operand-address test; then the operand bytes, read at offsets from
the unmodified `pc`. An unrecognised opcode does not fault here. -/
def decodeStage (n : Nat) (s : State) : Reply :=
  if classify s.inflight.op = opInvalid then
    .quiet ((s.capture { s.inflight with op := opInvalid }).goTo .execute)
  else if operandsInBounds n s.pc (opLength (classify s.inflight.op)) then
    .quiet ((s.capture (routeOperands s.inflight (classify s.inflight.op)
      (s.readByte (s.pc.toNat + 1)) (s.readByte (s.pc.toNat + 2)))).goTo .execute)
  else .raise .operandFetchOutOfRange (firstOutside n s.pc) s

/-- The opcode numbers Execute takes as Invalid: 8, and by R85 those above it, which no run shows. -/
def isInvalidOp (op : Byte) : Bool := opInvalid ≤ op

/-- Execute (R74): HALT and Invalid set `halted`; the ALU opcodes write `scratch`; every case moves
to Memory. -/
def executeStage (s : State) : Reply :=
  if s.inflight.op = opHalt then .quiet (s.halt.goTo .memory)
  else if isInvalidOp s.inflight.op then
    .raise .invalidOpcode (s.readByte s.pc.toNat).toNat (s.goTo .memory)
  else
    match alu s.inflight.op (s.readReg s.inflight.rd) (s.readReg s.inflight.rs) s.inflight.imm with
    | some v => .quiet ((s.setScratch v).goTo .memory)
    | none => .quiet (s.goTo .memory)

/-- Memory (R75): the store or the load, after its bounds test; nothing for other opcodes. -/
def memoryStage (n : Nat) (s : State) : Reply :=
  let a := effectiveAddress s.inflight.imm
  if s.inflight.op = opMovRm then
    if inBounds n a then .quiet ((s.storeByte a (s.readReg s.inflight.rs)).goTo .writeback)
    else .raise .dataAddressOutOfRange a s
  else if s.inflight.op = opMovMr then
    if inBounds n a then .quiet ((s.setScratch (zext16 (s.readByte a))).goTo .writeback)
    else .raise .dataAddressOutOfRange a s
  else .quiet (s.goTo .writeback)

/-- Whether Writeback writes a register for this opcode (R76, R83). -/
def writesRegister (op : Byte) : Bool :=
  op = opMovRr ∨ op = opAddRr ∨ op = opSubRr ∨ op = opMovMr

/-- Writeback (R76): for JMP the tested commit of `scratch` to `pc`, with no length added; for the
rest the register write, if any, and the advance by the opcode's length. -/
def writebackStage (n : Nat) (s : State) : Reply :=
  if s.inflight.op = opJmp then
    if inBounds n s.scratch.toNat then .quiet ((s.setPc s.scratch).goTo .fetch)
    else .raise .jumpTargetOutOfRange s.scratch.toNat s
  else
    let w := if writesRegister s.inflight.op then s.commit s.inflight.rd else s
    .quiet ((w.advancePc (opLength s.inflight.op)).goTo .fetch)

/-- `tick` (R70, R71): nothing in a halted machine, else the stage named by `stage`. -/
def tickReply (n : Nat) (s : State) : Reply :=
  if s.halted then .quiet s
  else
    match s.stage with
    | .fetch => fetchStage n s
    | .decode => decodeStage n s
    | .execute => executeStage s
    | .memory => memoryStage n s
    | .writeback => writebackStage n s

/-- `k` ticks, with the notifications in the order they were emitted: the driving loop (R84). Ticking
a halted machine changes nothing (R71), so the loop's own test of `halted` needs no place here. -/
def runTicks (n : Nat) : Nat → State → State × List Notice
  | 0, s => (s, [])
  | k + 1, s =>
    let r := tickReply n s
    let rest := runTicks n k r.state
    (rest.1, r.notice.toList ++ rest.2)

/-- One tick of the hardware, as a state. -/
def tick (s : State) : State := (tickReply Config.memSize s).state

/-- `k` ticks of the hardware, as a state. -/
def ticks (k : Nat) (s : State) : State := (runTicks Config.memSize k s).1

/-- How many ticks from this stage to the next Fetch, if nothing stops the machine (R77, R78). -/
def ticksLeft : Stage → Nat
  | .fetch => 5
  | .decode => 4
  | .execute => 3
  | .memory => 2
  | .writeback => 1

end Sys2Proof.Machine
end

