-- ==== Sys2Proof/Machine/Instruction.lean ====
section
/-! DEFINITION. The instruction-level function of R80: fetch and decode an instruction's bytes, then its net effect, for a memory of `n` bytes; and the interface operation that places an instruction. -/

namespace Sys2Proof.Machine

/-- The bytes a decoder can see from `pc`: at most three, and only those inside memory. -/
def fetchWindow (n : Nat) (s : State) : List Byte :=
  (([0, 1, 2].map (s.pc.toNat + ·)).filter (inBounds n)).map s.readByte

/-- Fetch and decode at `pc` (R80, R61): the instruction, or the reply of the fault that stops it.
PcOutOfRange leaves all but `halted` alone (R141); OperandFetchOutOfRange comes in the Decode tick,
after Fetch has put the raw opcode byte in `inflight` (R145). -/
def fetchInstr (n : Nat) (s : State) : Except Reply Instr :=
  match decode (fetchWindow n s) with
  | .ok i => .ok i
  | .error .noOpcodeByte => .error (.raise .pcOutOfRange s.pc.toNat s)
  | .error .operandByteMissing =>
    .error (.raise .operandFetchOutOfRange (firstOutside n s.pc)
      ((s.capture (fetchedInflight (s.readByte s.pc.toNat))).goTo .decode))

/-- The net effect of a decoded instruction with its notification, in a memory of `n` bytes. At
`n = Config.memSize` its state is what `exec` answers. -/
def effect (n : Nat) (i : Instr) (s : State) : Reply :=
  match i with
  | .halt => haltReply s
  | .nop => nopReply s
  | .movRr rd rs => movRrReply rd rs s
  | .movRm addr rs => movRmReply n addr rs s
  | .movMr rd addr => movMrReply n rd addr s
  | .addRr rd rs => addRrReply rd rs s
  | .subRr rd rs => subRrReply rd rs s
  | .jmp target => jmpReply n target s
  | .invalid => invalidReply s

/-- `exec(S)` of R80: one whole instruction from a state with `stage = Fetch` and `halted = 0`. -/
def instruction (n : Nat) (s : State) : Reply :=
  match fetchInstr n s with
  | .ok i => effect n i s
  | .error r => r

/-- Where an instruction placed by the host goes: at `pc` if three bytes fit there, else at 0. -/
def placementAddress (s : State) : Nat := if s.pc.toNat + 3 ≤ Config.memSize then s.pc.toNat else 0

/-- Write bytes at ascending addresses from `a`. -/
def State.storeBytes (s : State) : Nat → List Byte → State
  | _, [] => s
  | a, b :: rest => (s.storeByte a b).storeBytes (a + 1) rest

/-- `s` with an instruction's bytes where the next step fetches, and ready to fetch them: `pc` at
those bytes, `halted = 0`, `stage = Fetch`. Log entry 12. -/
def placeInstr (s : State) (bytes : List Byte) : State :=
  let a := placementAddress s
  { s.storeBytes a bytes with pc := BitVec.ofNat 16 a, halted := false, stage := .fetch }

/-- The rest of an instruction that is under way: ticks until the next Fetch or the halt (R77). -/
def finishInFlight (n : Nat) (s : State) : State := (runTicks n (ticksLeft s.stage) s).1

end Sys2Proof.Machine
end

