-- ==== Sys2Proof/Machine/Step.lean ====
section
/-! DEFINITION. One step of the machine for the host: one instruction. -/

namespace Sys2Proof.Machine

/-- One step is one instruction, that is, ticks until `stage` is Fetch again or the machine is
halted (R78, R80, R81; log entry 1). A halted machine does not change (R71). From Fetch the step
fetches, decodes and runs `exec`; from any other stage it finishes the instruction under way. -/
def step (s : State) : Host.Outcome State Fault Refusal :=
  if s.halted then .next s
  else
    match s.stage with
    | .fetch =>
      match fetchInstr Config.memSize s with
      | .ok i => exec i s
      | .error r => .next r.state
    | .decode => .next (finishInFlight Config.memSize s)
    | .execute => .next (finishInFlight Config.memSize s)
    | .memory => .next (finishInFlight Config.memSize s)
    | .writeback => .next (finishInFlight Config.memSize s)

/-- `s` with the instruction whose table word is `w` placed where the next step fetches. -/
def State.withFetchWord (s : State) (nbits w : Nat) : State := placeInstr s (tableBytes nbits w)

end Sys2Proof.Machine
end

