-- ==== Sys2Proof/WellFormed.lean ====
section
/-! DEFINITION. What is well formed: an instruction against a memory size, and a line of loader text. -/

namespace Sys2Proof

/-- An instruction is well formed for a memory of `n` bytes when it is one of the eight operations
(R2; INVALID is the error class: it has no mnemonic and no loader line gives it, R102) and its
address operand, if it has one, names a byte of that memory (R38). At `n = 256` the second check
never fails (R39). A register operand is 3 bits wide, so its check (R12) is the decoder's and the
loader line's, and cannot fail here. -/
def Instr.wf (n : Nat) : Instr → Bool
  | .halt => true
  | .nop => true
  | .movRr _ _ => true
  | .movRm addr _ => addr.toNat < n
  | .movMr _ addr => addr.toNat < n
  | .addRr _ _ => true
  | .subRr _ _ => true
  | .jmp target => target.toNat < n
  | .invalid => false

/-- A number the loader text gives for a register: "the loader must validate indices taken from
text" (R12, R67). -/
def wfRegister (k : Nat) : Bool := k < Config.regCount

/-- A number the loader text gives for a byte (R63, R64: values 0 to 255). -/
def wfByte (k : Nat) : Bool := k < 256

/-- A line of loader text has the operands its mnemonic's layout asks for (R64), each in range.
What the loader does with any other line is not in the spec (D22): the loader model refuses it.
An unrecognised mnemonic is skipped, whatever follows it (R65). -/
def Line.wf : Line → Bool
  | .ignored => true
  | .init reg value => wfRegister reg && wfByte value
  | .instr .HALT operands => operands.isEmpty
  | .instr .NOP operands => operands.isEmpty
  | .instr .MOV_RR [d, s] => wfRegister d && wfRegister s
  | .instr .MOV_RM [a, s] => wfByte a && wfRegister s
  | .instr .MOV_MR [d, a] => wfRegister d && wfByte a
  | .instr .ADD_RR [d, s] => wfRegister d && wfRegister s
  | .instr .SUB_RR [d, s] => wfRegister d && wfRegister s
  | .instr .JMP [t] => wfByte t
  | .instr .unrecognized _ => true
  | .instr _ _ => false

end Sys2Proof
end

