-- ==== Sys2Proof/Machine/Loader.lean ====
section
/-! DEFINITION. The host's side of the interface (R6): reset, load, the loader's lines, observe, and the inference of why a machine stopped. -/

namespace Sys2Proof.Machine

/-- `reset` (R170, R172): allowed at any time, discards everything. -/
def hostReset (_ : State) : State := State.reset

/-- Write memory bytes, first to last; the host writes only cells 0 to 255 (R32, R45), so an
address is a byte. DESIGN CHOICE: of several values for one address the last counts (log entry 21). -/
def State.loadBytes (s : State) : List (Byte × Byte) → State
  | [] => s
  | (a, v) :: rest => (s.storeByte a.toNat v).loadBytes rest

/-- Write general registers, first to last. DESIGN CHOICE: of several values for one register the
last counts, which the spec does not say (log entry 21). -/
def State.loadRegs (s : State) : List (RegIdx × Byte) → State
  | [] => s
  | (r, v) :: rest => (s.writeReg r v).loadRegs rest

/-- `load(mem image, register values)` (R173): memory bytes, registers, `pc <- 0`, and nothing else.
The host may do it after reset and before the first tick only (log entry 16). -/
def State.load (s : State) (image : List (Byte × Byte)) (values : List (RegIdx × Byte)) : State :=
  ((s.loadBytes image).loadRegs values).setPc 0

/-- The state a run starts from: reset, then load (R84, R174). -/
def launch (image : List (Byte × Byte)) (values : List (RegIdx × Byte)) : State :=
  State.reset.load image values

/-! ### The loader's lines (R62 to R67), outside the block (R4) -/

/-- The instruction of a well-formed instruction line: operands in byte order, registers as bare
numbers (R64); none for other lines and for an unrecognised mnemonic, which is skipped (R65). -/
def lineInstr : Line → Option Instr
  | .instr .HALT [] => some .halt
  | .instr .NOP [] => some .nop
  | .instr .MOV_RR [d, s] => some (.movRr (BitVec.ofNat 3 d) (BitVec.ofNat 3 s))
  | .instr .MOV_RM [a, s] => some (.movRm (BitVec.ofNat 8 a) (BitVec.ofNat 3 s))
  | .instr .MOV_MR [d, a] => some (.movMr (BitVec.ofNat 3 d) (BitVec.ofNat 8 a))
  | .instr .ADD_RR [d, s] => some (.addRr (BitVec.ofNat 3 d) (BitVec.ofNat 3 s))
  | .instr .SUB_RR [d, s] => some (.subRr (BitVec.ofNat 3 d) (BitVec.ofNat 3 s))
  | .instr .JMP [t] => some (.jmp (BitVec.ofNat 8 t))
  | _ => none

/-- The bytes a line emits (R64 to R66). -/
def lineBytes (l : Line) : List Byte :=
  match lineInstr l with
  | some i => encode i
  | none => []

/-- The bytes of a program, in the order of its lines (R66). -/
def programBytes (p : List Line) : List Byte := p.flatMap lineBytes

/-- The register values a line sets (R63). -/
def lineRegs : Line → List (RegIdx × Byte)
  | .init reg value => [(BitVec.ofNat 3 reg, BitVec.ofNat 8 value)]
  | _ => []

/-- The register values of a program, in the order of its lines. DESIGN CHOICE: so the last of two
initialisers of one register counts (R63 does not say which; log entry 21). -/
def programRegs (p : List Line) : List (RegIdx × Byte) := p.flatMap lineRegs

/-- Bytes at ascending addresses from `a` (R66). -/
def imageFrom : Nat → List Byte → List (Byte × Byte)
  | _, [] => []
  | a, b :: rest => (BitVec.ofNat 8 a, b) :: imageFrom (a + 1) rest

/-- The launch state the loader makes of a program. A line that is not well formed, or a program of
more bytes than the memory has, is refused: what the loader does with it is not in the spec (D22;
log entry 14). -/
def loadProgram (p : List Line) : Option State :=
  if p.all Line.wf && decide ((programBytes p).length ≤ Config.memSize) then
    some (launch (imageFrom 0 (programBytes p)) (programRegs p))
  else none

/-! ### Observing -/

/-- `observe` (R25): it reads, never writes; `stage`, `inflight` and `scratch` are hidden. -/
def State.observe (s : State) : Observation := ⟨s.regs, s.pc, s.mem, s.halted⟩

/-- The stop cause of a three-byte instruction that lies inside memory: a bad register index is an
InvalidOpcode; failing that, the fault the opcode can still raise, if it has one. -/
def inferWhole (badIndex : Bool) (otherwise : StopCause) : StopCause :=
  if badIndex then .fault .invalidOpcode else otherwise

/-- Whether an operand byte is no register index (R58). -/
def badIndex (b : Byte) : Bool := (regIndex b).isNone

/-- The cause of a stop, inferred from the final observation alone, for a memory of `n` bytes: the
table of R152. It fails where the program overwrote its own bytes after they were fetched.
DESIGN CHOICE (log entry 22), for observations in which R152 names no cause: a whole valid MOV_RM,
MOV_MR or JMP at `pc` answers its bounds fault at every `n`, at 256 too, where R152 infers it below
256 only; a NOP or a whole valid MOV_RR, ADD_RR or SUB_RR answers that nothing can be inferred. -/
def inferStop (n : Nat) (o : Observation) : StopCause :=
  let p := o.pc.toNat
  let b := o.mem.read p
  let b1 := o.mem.read (p + 1)
  let b2 := o.mem.read (p + 2)
  if ¬ inBounds n p then .fault .pcOutOfRange
  else if b = opHalt then .haltInstruction
  else if opInvalid ≤ b then .fault .invalidOpcode
  else if b = opNop then .notInferable
  else if ¬ inBounds n (p + opLength b - 1) then .fault .operandFetchOutOfRange
  else if b = opMovRm then inferWhole (badIndex b2) (.fault .dataAddressOutOfRange)
  else if b = opMovMr then inferWhole (badIndex b1) (.fault .dataAddressOutOfRange)
  else if b = opJmp then .fault .jumpTargetOutOfRange
  else inferWhole (badIndex b1 || badIndex b2) .notInferable

/-- The cause a reply shows: the fault it notifies, or HALT when it halts without a notification,
which is how a host tells the two apart (R146). -/
def Reply.stopCause (r : Reply) : StopCause :=
  match r.notice with
  | some x => .fault x.fault
  | none => if r.state.halted then .haltInstruction else .notInferable

end Sys2Proof.Machine
end

