-- ==== Sys2Proof/Safety.lean ====
section
/-! DEFINITION. The terms claims use: ready and launch states, instruction bytes in memory, the invariants of R26, a clean tick. -/

namespace Sys2Proof.Machine

/-- Between instructions and running: where R80 and every tick table start. -/
def State.Ready (s : State) : Prop := s.stage = .fetch ∧ s.halted = false

/-- The bytes of memory from address `a` on begin with `bytes`, all of them inside a memory of `n`
bytes. -/
def State.HoldsAt (s : State) (n a : Nat) (bytes : List Byte) : Prop :=
  a + bytes.length ≤ n ∧ ∀ j, (h : j < bytes.length) → s.readByte (a + j) = bytes[j]

/-- A launch state (R174): any memory and registers; `pc` 0, not halted, at Fetch, `inflight` and
`scratch` at their reset values. -/
structure State.Launch (s : State) : Prop where
  memory : s.mem.wf = true
  pc : s.pc = 0
  running : s.halted = false
  stage : s.stage = .fetch
  inflight : s.inflight = Inflight.default
  scratch : s.scratch = 0

/-- The invariants of R26 (items 1 to 4 and 6; item 5 is about two states) in a memory of `n` bytes,
and the canonical form of the memory list. -/
structure State.Inv (n : Nat) (s : State) : Prop where
  memory : s.mem.wfAt n = true
  /-- Item 1. -/
  pcAtMost : s.pc.toNat ≤ n
  /-- Item 2. -/
  pcInside : s.stage ≠ .fetch → s.pc.toNat < n
  /-- Item 3. -/
  decoded : s.stage = .execute ∨ s.stage = .memory ∨ s.stage = .writeback →
    s.inflight.op ≤ opInvalid ∧
      (s.inflight.op ≤ opJmp → s.pc.toNat + opLength s.inflight.op - 1 < n)
  /-- Item 4. -/
  running : s.stage = .memory ∨ s.stage = .writeback → s.halted = false →
    opNop ≤ s.inflight.op ∧ s.inflight.op ≤ opJmp
  /-- Item 6. -/
  scratch : s.scratch.toNat ≤ 510 ∨ 65281 ≤ s.scratch.toNat

/-- The target waiting in `scratch` for the Writeback of a JMP is the byte the instruction named
(R74: nothing between Execute and Writeback writes `scratch` for a JMP). The model's own
strengthening of R26, needed to say that a target is at most 255 (R39). -/
def State.JumpTargetIsByte (s : State) : Prop :=
  s.stage = .memory ∨ s.stage = .writeback → s.inflight.op = opJmp → s.scratch.toNat < 256

/-- A tick that raises no fault: what a safe run consists of. HALT's own tick is clean (R146). -/
def cleanTick (n : Nat) (s : State) : Prop := (tickReply n s).notice = none

/-- A run of `k` ticks that raises no fault. -/
def SafeRun (n k : Nat) (s : State) : Prop := (runTicks n k s).2 = []

/-- The tick, counted from the instruction's Fetch, at which each cause of a stop sets `halted`: the
list of R78. -/
def stopTick : StopCause → Nat
  | .fault .pcOutOfRange => 1
  | .fault .operandFetchOutOfRange => 2
  | .haltInstruction => 3
  | .fault .invalidOpcode => 3
  | .fault .dataAddressOutOfRange => 4
  | .fault .jumpTargetOutOfRange => 5
  | .notInferable => 0

/-- The whole state of a machine after `k` instructions that all complete, ready for the next: `k`
steps that each leave it running. -/
def completesTo : Nat → State → State → Prop
  | 0, s, t => s = t ∧ t.Ready
  | k + 1, s, t => s.Ready ∧ ∃ u, step s = .next u ∧ u.Ready ∧ completesTo k u t

/-- The value a line gives register `r`, when it is an initialiser of it (R63). -/
def initialiserOf (r : RegIdx) : Line → Option Nat
  | .init reg value => if reg = r.toNat then some value else none
  | .ignored => none
  | .instr _ _ => none

end Sys2Proof.Machine
end

