-- ==== Sys2Proof/Certificates/Slice0/Obligations.lean ====
section
/-! DEFINITION. The statements for the provers. Each docstring names the rule it formalises, and the decisions the spec marks as its own (D1 to D22) or the log entries of this model that it rests on. Bytes are written as the spec writes them; a register-index byte is the index widened to 8 bits. Wherever the opcode numbers 1, 3, 4, 5 and 6 stand, they are the spec's inference D1 (log entry 4). -/

open Sys2Proof Sys2Proof.Machine

/-! ### Encoding -/

/-- Decoding the encoding of any instruction, whatever bytes follow, gives the instruction back
(R51, R54, R61; the numbers D1, log entry 4). The Invalid class is encoded by its representative
byte 8, the model's choice (log entry 13). -/
def Obligations.DecodeOfEncodeIsTheInstruction : Prop :=
  ∀ (i : Instr) (rest : List Byte), decode (encode i ++ rest) = .ok i

/-- One meaning, one byte sequence: bytes that decode to one of the eight operations begin with
exactly its encoding, so no bit of an operand byte is ignored (R57, R58, R59; that a register-index
byte above 7 is Invalid is D5, log entry 5). -/
def Obligations.DecodedBytesBeginWithTheEncoding : Prop :=
  ∀ (bytes : List Byte) (i : Instr), decode bytes = .ok i → i ≠ .invalid →
    bytes = encode i ++ bytes.drop i.length

/-- `classify` compares the whole opcode byte (R57): 0 to 7 are themselves, every other byte is 8,
so 0x80, 0x0A and 0xFF decode to Invalid, and 0x02 is the only opcode byte of MOV_RR. -/
def Obligations.ClassifyComparesTheWholeByte : Prop :=
  (∀ b : Byte, (classify b).toNat = if b.toNat ≤ 7 then b.toNat else 8) ∧
    decode [0x80] = .ok .invalid ∧ decode [0x0A] = .ok .invalid ∧ decode [0xFF] = .ok .invalid ∧
    ∀ (b : Byte) (operands : List Byte) (rd rs : RegIdx),
      decode (b :: operands) = .ok (.movRr rd rs) → b = 0x02

/-- The decision procedure of R61, on memory, for every memory size: from `pc` inside memory, fetch
and decode give Invalid, the operand fault, or the instruction with its operands (D1, D5 and D6, log
entries 4, 5 and 6). The state the operand fault leaves, `stage` Decode with the fetched record, is
D8 and D10 (log entry 8). -/
def Obligations.FetchAndDecodeFollowTheDecisionProcedure : Prop :=
  ∀ (n : Nat) (s : State), s.pc.toNat < n →
    let p := s.pc.toNat
    let b0 := s.readByte p
    let b1 := s.readByte (p + 1)
    let b2 := s.readByte (p + 2)
    let len := if b0.toNat = 7 then 2 else if 2 ≤ b0.toNat ∧ b0.toNat ≤ 6 then 3 else 1
    fetchInstr n s =
      if 8 ≤ b0.toNat then .ok .invalid
      else if n ≤ p + len - 1 then
        .error ⟨{ s with halted := true, stage := .decode, inflight := ⟨b0, .none, 0, 0, 0⟩ },
          some ⟨.operandFetchOutOfRange, if n ≤ p + 1 then p + 1 else p + 2⟩⟩
      else if b0 = 0 then .ok .halt
      else if b0 = 1 then .ok .nop
      else if b0 = 2 then
        .ok (if b1.toNat > 7 ∨ b2.toNat > 7 then .invalid else .movRr (b1.setWidth 3) (b2.setWidth 3))
      else if b0 = 3 then .ok (if b2.toNat > 7 then .invalid else .movRm b1 (b2.setWidth 3))
      else if b0 = 4 then .ok (if b1.toNat > 7 then .invalid else .movMr (b1.setWidth 3) b2)
      else if b0 = 5 then
        .ok (if b1.toNat > 7 ∨ b2.toNat > 7 then .invalid else .addRr (b1.setWidth 3) (b2.setWidth 3))
      else if b0 = 6 then
        .ok (if b1.toNat > 7 ∨ b2.toNat > 7 then .invalid else .subRr (b1.setWidth 3) (b2.setWidth 3))
      else .ok (.jmp b1)

/-- A few words, written out from the formats of R51 and the numbers of R52, decode to what they
stand for (vectors V1 to V12 of `95_test_vectors.md`; D1, D5). A sanity statement. -/
def Obligations.SampleWordsDecode : Prop :=
  decode [0x00] = .ok .halt ∧ decode [0x01] = .ok .nop ∧
    decode [0x02, 0x03, 0x04] = .ok (.movRr 3 4) ∧ decode [0x03, 0x40, 0x02] = .ok (.movRm 0x40 2) ∧
    decode [0x04, 0x07, 0xFF] = .ok (.movMr 7 0xFF) ∧ decode [0x05, 0x07, 0x07] = .ok (.addRr 7 7) ∧
    decode [0x06, 0x00, 0x01] = .ok (.subRr 0 1) ∧ decode [0x07, 0xFF] = .ok (.jmp 0xFF) ∧
    decode [0x08] = .ok .invalid ∧ decode [0x02, 0x08, 0x00] = .ok .invalid

/-! ### The step -/

/-- A step runs the decoded instruction: from a running state at Fetch, when the bytes at `pc` are
inside memory and decode to `i`, the step is `exec i` at that state, with nothing around it. That a
step of the host's interface is one instruction is the model's choice (log entry 1). -/
def Obligations.StepRunsTheDecodedInstruction : Prop :=
  ∀ (s : State) (bytes : List Byte) (i : Instr), s.Ready →
    s.HoldsAt Config.memSize s.pc.toNat bytes → decode bytes = .ok i → step s = exec i s

/-- What a step does when there is no whole instruction at `pc`: past the end of memory only
`halted` changes (R141); an operand byte past the end halts in the Decode tick (R145; D6, log entry
6). Where `stage` stands after the faults is D8, and the fetched record is D10 (log entry 8). -/
def Obligations.StepHaltsWhereNoWholeInstructionLies : Prop :=
  ∀ (s : State), s.Ready →
    (256 ≤ s.pc.toNat → step s = .next { s with halted := true }) ∧
    (∀ b0, s.pc.toNat < 256 → s.readByte s.pc.toNat = b0 →
      (b0 = 7 ∧ s.pc.toNat = 255) ∨ (2 ≤ b0.toNat ∧ b0.toNat ≤ 6 ∧ 254 ≤ s.pc.toNat) →
      step s = .next { s with halted := true, stage := .decode, inflight := ⟨b0, .none, 0, 0, 0⟩ })

/-- Every step, from every state, is the ticks up to the next Fetch or the halt: five from Fetch,
four from Decode, and so on (R77, R78, R80). That a step of the host's interface is one instruction
is the model's choice (log entry 1). That ticks of a halted machine change nothing is D3 (log entry
7). -/
def Obligations.StepIsTheTicksToTheNextFetch : Prop :=
  ∀ (s : State), step s = .next (ticks (ticksLeft s.stage) s)

/-- Five ticks from Fetch equal one call of the instruction-level function, in every element of the
state and in the notification, at every memory size (R81; for the hidden elements, which R81 does
not name, the values of D8 to D10, log entry 8). That ticks of a halted machine change nothing is D3
(log entry 7). The form of the notification is D12 (log entry 9). -/
def Obligations.FiveTicksEqualOneInstruction : Prop :=
  ∀ (n : Nat) (s : State), s.Ready →
    runTicks n 5 s = ((instruction n s).state, (instruction n s).notice.toList)

/-- Every step answers a next state: `tick` is total (R85), and no step ends in a fault of the
host's kind or a refusal. That a step of a halted machine is a next state, itself, is D3 (log entry
7). That the faults are next states, so that none is a fault of the host's kind, is the model's
reading (log entry 2); for states no run reaches the ticks are R85's extension, D15 (log entry 10).
-/
def Obligations.EveryStepAnswersANextState : Prop :=
  ∀ (s : State), ∃ t, step s = .next t

/-- A halted machine ignores ticks: no element changes and nothing is notified, however many there
are (R71; D3, log entry 7); a tick of a running machine is the action of its stage. -/
def Obligations.HaltedMachineIgnoresTicks : Prop :=
  ∀ (n k : Nat) (s : State),
    (s.halted = true → runTicks n k s = (s, []) ∧ step s = .next s) ∧
    (s.halted = false → tickReply n s =
      match s.stage with
      | .fetch => fetchStage n s
      | .decode => decodeStage n s
      | .execute => executeStage s
      | .memory => memoryStage n s
      | .writeback => writebackStage n s)

/-! ### The stage register and the count of ticks -/

/-- The table of R77: `stage` and `halted` after each kind of tick (the fault rows are D8, log entry
8; the row of a halted machine is D3, log entry 7; opcode numbers above 8 are R85, log entry 10). -/
def Obligations.StageAndHaltedAfterEachTick : Prop :=
  ∀ (n : Nat) (s : State),
    let r := tickReply n s
    (s.halted = true → r.state.stage = s.stage ∧ r.state.halted = true) ∧
    (s.halted = false →
      (s.stage = .execute → r.state.stage = .memory ∧
        (r.state.halted = true ↔ s.inflight.op = 0 ∨ 8 ≤ s.inflight.op.toNat)) ∧
      (s.stage ≠ .execute → r.notice = none →
        r.state.stage = s.stage.successor ∧ r.state.halted = false) ∧
      (s.stage ≠ .execute → ∀ x, r.notice = some x →
        r.state.stage = s.stage ∧ r.state.halted = true))

/-- The counts of R78: from a running state at Fetch an instruction that neither halts nor faults
takes the ticks Fetch, Decode, Execute, Memory, Writeback and is at Fetch again after the fifth; one
that stops the machine sets `halted` at exactly the tick R78 gives for its cause, and `halted` is 0
until then. Decisions of the spec: the count for OperandFetchOutOfRange is D6 (log entry 6), that
for JumpTargetOutOfRange is D7 (log entry 8), and that `halted` stays set is D3 (log entry 7). -/
def Obligations.InstructionsTakeTheirTicks : Prop :=
  ∀ (n : Nat) (s : State), s.Ready →
    let r := instruction n s
    (r.state.halted = false → (runTicks n 5 s).1.Ready ∧
      (runTicks n 1 s).1.stage = .decode ∧ (runTicks n 2 s).1.stage = .execute ∧
      (runTicks n 3 s).1.stage = .memory ∧ (runTicks n 4 s).1.stage = .writeback) ∧
    (r.state.halted = true → ∀ k, (runTicks n k s).1.halted = decide (stopTick r.stopCause ≤ k))

/-- A run that completes `k` instructions and then meets a HALT takes `5k + 3` ticks (R178):
`halted` is set at that tick and not before, and the observation is that of the last completed
instruction, with `halted` set. That `halted` stays set is D3 (log entry 7); `completesTo` counts
steps, and that a step is one instruction is the model's choice (log entry 1). -/
def Obligations.KInstructionsAndAHaltTakeFiveKPlusThreeTicks : Prop :=
  ∀ (k : Nat) (s t : State), completesTo k s t →
    t.pc.toNat < Config.memSize → t.readByte t.pc.toNat = 0 →
    (∀ j, (ticks j s).halted = decide (5 * k + 3 ≤ j)) ∧
    (ticks (5 * k + 3) s).observe = { t.observe with halted := true }

/-! ### Invariants -/

/-- Every tick keeps the invariants of R26 (items 1 to 4 and 6) and the canonical form of memory, at
every memory size R7 allows, and keeps `halted` set once it is (item 5). That ticks of a halted
machine change nothing is D3 (log entry 7). The invariants on `inflight` and `scratch` rest on D6,
D9 and D10 (log entries 6 and 8). -/
def Obligations.EveryTickKeepsTheInvariants : Prop :=
  ∀ (n : Nat) (s : State), Config.ValidMemSize n → s.Inv n →
    (tickReply n s).state.Inv n ∧ (s.halted = true → (tickReply n s).state.halted = true)

/-- Every step keeps them on the hardware. That ticks of a halted machine change nothing is D3 (log
entry 7). The invariants on `inflight` and `scratch` rest on D6, D9 and D10 (log entries 6 and 8).
-/
def Obligations.EveryStepKeepsTheInvariants : Prop :=
  ∀ (s t : State), s.Inv Config.memSize → step s = .next t → t.Inv Config.memSize

/-- The invariants hold at reset and in every launch state (R174), and reset followed by any load is
a launch state (R173; that `halted` is 0 at reset is D4, log entry 7). That `load` touches nothing
else is D14 (log entry 16). -/
def Obligations.LaunchStatesMeetTheInvariants : Prop :=
  State.reset.Launch ∧ (∀ image values, (launch image values).Launch) ∧
    ∀ s : State, s.Launch → s.Inv Config.memSize

/-- From a launch state `pc` never passes 256, whatever the program, and while an instruction is
under way it is at most 255 (R15, R26). That ticks of a halted machine change nothing is D3 (log
entry 7). The bound rests on Decode's test, D6 (log entry 6). -/
def Obligations.PcStaysWithinMemoryOrOnePast : Prop :=
  ∀ (s : State), s.Launch → ∀ k,
    (ticks k s).pc.toNat ≤ 256 ∧ ((ticks k s).stage ≠ .fetch → (ticks k s).pc.toNat ≤ 255)

/-- At 256 bytes of memory no run raises DataAddressOutOfRange or JumpTargetOutOfRange (R39). That
ticks of a halted machine change nothing is D3 (log entry 7). The form of the notification is D12
(log entry 9). -/
def Obligations.NoRunRaisesTheDataOrJumpFault : Prop :=
  ∀ (s : State), s.Launch → ∀ k, ∀ x ∈ (runTicks Config.memSize k s).2,
    x.fault ≠ .dataAddressOutOfRange ∧ x.fault ≠ .jumpTargetOutOfRange

/-- The invariant that rules those two faults out, kept by every tick: the target that waits in
`scratch` for a JMP is a byte; a tick that keeps it raises neither fault at 256 (R39). The invariant
is the model's own strengthening of R26 (log entry 8). That ticks of a halted machine change nothing
is D3 (log entry 7). That JMP's target waits in `scratch` and is tested at Writeback is D9 and D7
(log entry 8). -/
def Obligations.EveryTickKeepsTheJumpTargetAByte : Prop :=
  ∀ (s : State), s.JumpTargetIsByte →
    (tick s).JumpTargetIsByte ∧
    ∀ x, (tickReply Config.memSize s).notice = some x →
      x.fault ≠ .dataAddressOutOfRange ∧ x.fault ≠ .jumpTargetOutOfRange

/-! ### Faults -/

/-- The table of R140: which fault a tick raises, with which number, exactly when (the fault (e) is
D6, the stage of (c) is D7, opcode numbers above 8 are R85; log entries 6, 8 and 10). That a halted
machine raises none is D3 (log entry 7). The form of the notification is D12 (log entry 9). -/
def Obligations.EachFaultIsRaisedExactlyWhen : Prop :=
  ∀ (n : Nat) (s : State) (v : Nat),
    let raises := fun f => (tickReply n s).notice = some ⟨f, v⟩
    let runs := fun st => s.halted = false ∧ s.stage = st
    let op := s.inflight.op.toNat
    let len := if op = 7 then 2 else 3
    (raises .pcOutOfRange ↔ runs .fetch ∧ n ≤ s.pc.toNat ∧ v = s.pc.toNat) ∧
    (raises .operandFetchOutOfRange ↔ runs .decode ∧ 2 ≤ op ∧ op ≤ 7 ∧
      n ≤ s.pc.toNat + len - 1 ∧ v = if n ≤ s.pc.toNat + 1 then s.pc.toNat + 1 else s.pc.toNat + 2) ∧
    (raises .invalidOpcode ↔ runs .execute ∧ 8 ≤ op ∧ v = (s.readByte s.pc.toNat).toNat) ∧
    (raises .dataAddressOutOfRange ↔ runs .memory ∧ (op = 3 ∨ op = 4) ∧
      n ≤ s.inflight.imm.toNat ∧ v = s.inflight.imm.toNat) ∧
    (raises .jumpTargetOutOfRange ↔ runs .writeback ∧ op = 7 ∧
      n ≤ s.scratch.toNat ∧ v = s.scratch.toNat)

/-- Fault entry (R147): the tick that raises a fault sets `halted`, moves `stage` to Memory for
InvalidOpcode and not at all for the others, and changes nothing else. Where `stage` stands after a
fault is D8 (log entry 8); that an opcode number above 8 faults as 8 does is R85 (log entry 10). The
form of the notification is D12 (log entry 9). -/
def Obligations.FaultEntryOnlySetsHalted : Prop :=
  ∀ (n : Nat) (s : State) (x : Notice), (tickReply n s).notice = some x →
    (tickReply n s).state =
      { s with halted := true, stage := if x.fault = .invalidOpcode then .memory else s.stage }

/-- Faults are precise (R148): once a fault has been notified, registers, memory and `pc` are what
they were at the faulting instruction's Fetch, and stay so. That ticks of a halted machine change
nothing is D3 (log entry 7). -/
def Obligations.FaultsArePrecise : Prop :=
  ∀ (n k : Nat) (s : State), s.Ready → (instruction n s).notice.isSome = true →
    (runTicks n k s).1.regs = s.regs ∧ (runTicks n k s).1.mem = s.mem ∧ (runTicks n k s).1.pc = s.pc

/-- Priority (R150): of several defects of one instruction the first in stage order is reported, (a)
before (e) before (d) before (b) before (c) (D5 and D6, log entries 5 and 6). The form of the
notification is D12 (log entry 9). -/
def Obligations.TheFirstDefectIsReported : Prop :=
  ∀ (n : Nat) (s : State),
    let p := s.pc.toNat
    let b0 := (s.readByte p).toNat
    let b1 := (s.readByte (p + 1)).toNat
    let b2 := (s.readByte (p + 2)).toNat
    let len := if b0 = 7 then 2 else 3
    (instruction n s).notice.map Notice.fault =
      if n ≤ p then some .pcOutOfRange
      else if 2 ≤ b0 ∧ b0 ≤ 7 ∧ n ≤ p + len - 1 then some .operandFetchOutOfRange
      else if 8 ≤ b0 ∨ ((b0 = 2 ∨ b0 = 4 ∨ b0 = 5 ∨ b0 = 6) ∧ 7 < b1) ∨
          ((b0 = 2 ∨ b0 = 3 ∨ b0 = 5 ∨ b0 = 6) ∧ 7 < b2) then some .invalidOpcode
      else if (b0 = 3 ∧ n ≤ b1) ∨ (b0 = 4 ∧ n ≤ b2) then some .dataAddressOutOfRange
      else if b0 = 7 ∧ n ≤ b1 then some .jumpTargetOutOfRange
      else none

/-- After one instruction that stops the machine the cause can be read from the final observation
(R152), a HALT being told from a fault by the notification (R146; its form is D12, log entry 9).
Where R152 names no cause, `inferStop` answers by the model's choice (log entry 22); no running
machine at Fetch stops in such an observation. -/
def Obligations.TheCauseOfAStopCanBeInferred : Prop :=
  ∀ (n : Nat) (s : State), s.Ready → (instruction n s).state.halted = true →
    inferStop n (instruction n s).state.observe = (instruction n s).stopCause

/-! ### What each instruction does when it runs: every form completes, and its frame -/

/-- HALT (R100): `halted <- 1` and nothing else that can be observed; `pc` is not advanced. That
`scratch` is left alone is D9 (log entry 8). -/
def Obligations.HaltStopsInPlace : Prop :=
  ∀ (s : State), ∃ t, exec .halt s = .next t ∧ t.halted = true ∧ t.pc = s.pc ∧
    (∀ r, t.readReg r = s.readReg r) ∧ (∀ a, t.readByte a = s.readByte a) ∧ t.scratch = s.scratch

/-- NOP (R101): `pc <- pc + 1`; registers, memory, `halted` and `scratch` unchanged. The whole next
state is stated: besides `pc` only the hidden `inflight` and `stage` are written, as its five ticks
leave them. That `scratch` is left alone is D9 and the in-flight record is D10 (log entry 8); the
number 1 in the record is D1 (log entry 4). -/
def Obligations.NopAdvancesPcByOne : Prop :=
  ∀ (s : State), ∃ t, exec .nop s = .next t ∧ t.pc = s.pc + 1 ∧ t.halted = s.halted ∧
    (∀ r, t.readReg r = s.readReg r) ∧ (∀ a, t.readByte a = s.readByte a) ∧ t.scratch = s.scratch ∧
    t = { s with pc := s.pc + 1, inflight := ⟨1, .none, 0, 0, 0⟩, stage := .fetch }

/-- INVALID (R102): its own effect is the fault InvalidOpcode: `halted <- 1`; registers, memory,
`pc` and `scratch` unchanged. The whole next state is stated: besides `halted` only the hidden
`inflight` and `stage` are written, as its three ticks leave them. That `scratch` is left alone is
D9, stage Memory after the fault is D8 and the in-flight record is D10 (log entry 8). -/
def Obligations.InvalidHaltsInPlace : Prop :=
  ∀ (s : State), ∃ t, exec .invalid s = .next t ∧ t.halted = true ∧ t.pc = s.pc ∧
    (∀ r, t.readReg r = s.readReg r) ∧ (∀ a, t.readByte a = s.readByte a) ∧ t.scratch = s.scratch ∧
    t = { s with halted := true, inflight := ⟨8, .none, 0, 0, 0⟩, stage := .memory }

/-- MOV_RR (R110): `x[rd] <- x[rs]`, `pc <- pc + 3`; every other register, memory and `halted` as
before. `rd = rs` is one of the forms. The value stays in `scratch` (R20; D9). -/
def Obligations.MovRrCopiesARegister : Prop :=
  ∀ (s : State) (rd rs : RegIdx), ∃ t, exec (.movRr rd rs) s = .next t ∧
    t.readReg rd = s.readReg rs ∧ t.scratch.toNat = (s.readReg rs).toNat ∧
    t.pc = s.pc + 3 ∧ t.halted = s.halted ∧
    (∀ r, r ≠ rd → t.readReg r = s.readReg r) ∧ (∀ a, t.readByte a = s.readByte a)

/-- ADD_RR (R111): `x[rd] <- (x[rd] + x[rs]) mod 256`, `pc <- pc + 3`, the rest as before. With
`rd = rs` the register is doubled. The unreduced sum stays in `scratch` (R20; D9). -/
def Obligations.AddRrAddsModulo256 : Prop :=
  ∀ (s : State) (rd rs : RegIdx), ∃ t, exec (.addRr rd rs) s = .next t ∧
    (t.readReg rd).toNat = ((s.readReg rd).toNat + (s.readReg rs).toNat) % 256 ∧
    t.scratch.toNat = (s.readReg rd).toNat + (s.readReg rs).toNat ∧
    t.pc = s.pc + 3 ∧ t.halted = s.halted ∧
    (∀ r, r ≠ rd → t.readReg r = s.readReg r) ∧ (∀ a, t.readByte a = s.readByte a)

/-- SUB_RR (R112): `x[rd] <- (x[rd] - x[rs]) mod 256`, destination minus source, `pc <- pc + 3`, the
rest as before. With `rd = rs` the result is 0. The 16-bit difference stays in `scratch` (R20; D9).
-/
def Obligations.SubRrSubtractsModulo256 : Prop :=
  ∀ (s : State) (rd rs : RegIdx), ∃ t, exec (.subRr rd rs) s = .next t ∧
    ((t.readReg rd).toNat : Int) = (((s.readReg rd).toNat : Int) - (s.readReg rs).toNat) % 256 ∧
    (t.scratch.toNat : Int) = (((s.readReg rd).toNat : Int) - (s.readReg rs).toNat) % 65536 ∧
    t.pc = s.pc + 3 ∧ t.halted = s.halted ∧
    (∀ r, r ≠ rd → t.readReg r = s.readReg r) ∧ (∀ a, t.readByte a = s.readByte a)

/-- MOV_RM (R120) on the hardware: the whole register goes to the one byte at the effective address;
every other byte, every register, `scratch` and `halted` are as before; `pc <- pc + 3`. The memory
list is in its canonical form, which every step keeps. That `scratch` is left alone, the store's
data not passing through it, is D9 (log entry 8). -/
def Obligations.MovRmStoresOneByte : Prop :=
  ∀ (s : State) (addr : Byte) (rs : RegIdx), s.mem.wf = true →
    ∃ t, exec (.movRm addr rs) s = .next t ∧
      t.readByte (effectiveAddress addr) = s.readReg rs ∧
      (∀ a, a ≠ effectiveAddress addr → t.readByte a = s.readByte a) ∧
      effectiveAddress addr = addr.toNat ∧ t.pc = s.pc + 3 ∧ t.halted = s.halted ∧
      (∀ r, t.readReg r = s.readReg r) ∧ t.scratch = s.scratch

/-- MOV_MR (R121) on the hardware: `x[rd] <- mem[addr]`, the byte whole and zero-extended in
`scratch` (R35; D9); `pc <- pc + 3`; the rest as before. -/
def Obligations.MovMrLoadsOneByte : Prop :=
  ∀ (s : State) (rd : RegIdx) (addr : Byte), ∃ t, exec (.movMr rd addr) s = .next t ∧
    t.readReg rd = s.readByte addr.toNat ∧ t.scratch.toNat = (s.readByte addr.toNat).toNat ∧
    t.pc = s.pc + 3 ∧ t.halted = s.halted ∧
    (∀ r, r ≠ rd → t.readReg r = s.readReg r) ∧ (∀ a, t.readByte a = s.readByte a)

/-- JMP (R130) on the hardware: `pc <- target`, nothing added; registers, memory and `halted` as
before. The target stays in `scratch` (R74; D9). -/
def Obligations.JmpSetsPcToTheTarget : Prop :=
  ∀ (s : State) (target : Byte), ∃ t, exec (.jmp target) s = .next t ∧
    t.pc.toNat = target.toNat ∧ t.scratch.toNat = target.toNat ∧ t.halted = s.halted ∧
    (∀ r, t.readReg r = s.readReg r) ∧ (∀ a, t.readByte a = s.readByte a)

/-- Over all instructions: only MOV_RM changes memory, and only the byte it names; only MOV_RR,
ADD_RR, SUB_RR and MOV_MR change a register, and only the one they name (R75, R76; property Q11);
only HALT and INVALID change `halted` on the hardware. -/
def Obligations.OnlyTheNamedPlacesChange : Prop :=
  ∀ (i : Instr) (s t : State), exec i s = .next t →
    (t.mem ≠ s.mem → ∃ addr rs, i = .movRm addr rs ∧ t.mem = s.mem.write addr.toNat (s.readReg rs)) ∧
    (∀ r, t.readReg r ≠ s.readReg r → (∃ q, i = .movRr r q) ∨ (∃ q, i = .addRr r q) ∨
      (∃ q, i = .subRr r q) ∨ ∃ addr, i = .movMr r addr) ∧
    (t.halted ≠ s.halted → i = .halt ∨ i = .invalid)

/-- Which stage writes which element, at every memory size: memory only in the Memory stage,
registers and `pc` only in Writeback, `inflight` only in Fetch and Decode, `scratch` only in Execute
and Memory (R72 to R76, R13, R32; for `scratch` D9, log entry 8). That ticks of a halted machine
change nothing is D3 (log entry 7). -/
def Obligations.EachElementIsWrittenInItsStage : Prop :=
  ∀ (n : Nat) (s : State),
    let t := (tickReply n s).state
    (s.stage ≠ .memory → t.mem = s.mem) ∧ (s.stage ≠ .writeback → t.regs = s.regs ∧ t.pc = s.pc) ∧
    (s.stage ≠ .fetch → s.stage ≠ .decode → t.inflight = s.inflight) ∧
    (s.stage ≠ .execute → s.stage ≠ .memory → t.scratch = s.scratch)

/-- The laws of R113, items 1 to 4, for all bytes, through the instructions that compute them; item
4: SUB with the same source undoes ADD. That `scratch` holds the unreduced result is D9 (log entry
8). -/
def Obligations.ArithmeticWrapsModulo256 : Prop :=
  (∀ (s t : State) (rd rs : RegIdx), exec (.addRr rd rs) s = .next t →
    let a := (s.readReg rd).toNat
    let b := (s.readReg rs).toNat
    (t.readReg rd).toNat = (if a + b ≤ 255 then a + b else a + b - 256) ∧
      (t.readReg rd).toNat = t.scratch.toNat % 256) ∧
  (∀ (s t : State) (rd rs : RegIdx), exec (.subRr rd rs) s = .next t →
    let a := (s.readReg rd).toNat
    let b := (s.readReg rs).toNat
    (t.readReg rd).toNat = (if b ≤ a then a - b else a + 256 - b) ∧
      (t.readReg rd).toNat = t.scratch.toNat % 256) ∧
  (∀ (s t u : State) (rd rs : RegIdx), rd ≠ rs → exec (.addRr rd rs) s = .next t →
    exec (.subRr rd rs) t = .next u → u.readReg rd = s.readReg rd)

/-! ### The tick tables of the instructions, at every memory size

The hidden elements in them are the spec's decisions D8 to D10 (log entry 8). -/

/-- The tick table of R100, HALT at any address inside memory: `halted` at tick 3, nothing after, no
notification. Decisions of the spec: stage Memory after HALT is D8 and the in-flight record is D10
(log entry 8); that later ticks change nothing is D3 (log entry 7). -/
def Obligations.HaltTicks : Prop :=
  ∀ (n : Nat) (s : State), s.Ready → s.HoldsAt n s.pc.toNat [0x00] →
    let d := { s with inflight := ⟨0, .none, 0, 0, 0⟩, stage := .decode }
    (runTicks n 1 s).1 = d ∧ (runTicks n 2 s).1 = { d with stage := .execute } ∧
    ∀ k, 3 ≤ k → runTicks n k s = ({ d with halted := true, stage := .memory }, [])

/-- The tick table of R101, NOP at any address inside memory: nothing but the advance at tick 5. -/
def Obligations.NopTicks : Prop :=
  ∀ (n : Nat) (s : State), s.Ready → s.HoldsAt n s.pc.toNat [0x01] →
    let d := { s with inflight := ⟨1, .none, 0, 0, 0⟩, stage := .decode }
    (runTicks n 1 s).1 = d ∧ (runTicks n 2 s).1 = { d with stage := .execute } ∧
    (runTicks n 3 s).1 = { d with stage := .memory } ∧
    (runTicks n 4 s).1 = { d with stage := .writeback } ∧
    runTicks n 5 s = ({ d with pc := s.pc + 1, stage := .fetch }, [])

/-- The tick table of R102: an unrecognised opcode byte, wherever it lies, or a register-index byte
above 7 in an instruction that lies inside memory (D5, log entry 5): `halted` and the notification,
with the raw first byte, at tick 3, and nothing after; the operand fields stay at their defaults.
That ticks of a halted machine change nothing is D3 (log entry 7). The form of the notification is
D12 (log entry 9). -/
def Obligations.InvalidTicks : Prop :=
  ∀ (n : Nat) (s : State) (b b1 b2 : Byte), s.Ready →
    (8 ≤ b.toNat ∧ s.HoldsAt n s.pc.toNat [b]) ∨
      (s.HoldsAt n s.pc.toNat [b, b1, b2] ∧
        (((b = 2 ∨ b = 5 ∨ b = 6) ∧ (7 < b1.toNat ∨ 7 < b2.toNat)) ∨
          (b = 3 ∧ 7 < b2.toNat) ∨ (b = 4 ∧ 7 < b1.toNat))) →
    let d := { s with inflight := ⟨b, .none, 0, 0, 0⟩, stage := .decode }
    let e := { s with inflight := ⟨8, .none, 0, 0, 0⟩, stage := .execute }
    (runTicks n 1 s).1 = d ∧ runTicks n 2 s = (e, []) ∧
    ∀ k, 3 ≤ k → runTicks n k s =
      ({ e with halted := true, stage := .memory }, [⟨.invalidOpcode, b.toNat⟩])

/-- The tick tables of R110, R111 and R112, MOV_RR, ADD_RR and SUB_RR at any address: operands at
tick 2, the 16-bit result in `scratch` at tick 3, its low byte in `x[rd]` and `pc + 3` at tick 5. -/
def Obligations.RegisterInstructionTicks : Prop :=
  ∀ (n : Nat) (s : State) (rd rs : RegIdx) (op : Byte) (result : Wide), s.Ready →
    (op, result) ∈ [(2, (s.readReg rs).setWidth 16),
      (5, (s.readReg rd).setWidth 16 + (s.readReg rs).setWidth 16),
      (6, (s.readReg rd).setWidth 16 - (s.readReg rs).setWidth 16)] →
    s.HoldsAt n s.pc.toNat [op, rd.setWidth 8, rs.setWidth 8] →
    let e := { s with inflight := ⟨op, .regReg, rd, rs, 0⟩, stage := .execute }
    (runTicks n 1 s).1 = { s with inflight := ⟨op, .none, 0, 0, 0⟩, stage := .decode } ∧
    (runTicks n 2 s).1 = e ∧
    (runTicks n 3 s).1 = { e with scratch := result, stage := .memory } ∧
    (runTicks n 4 s).1 = { e with scratch := result, stage := .writeback } ∧
    runTicks n 5 s =
      ({ e.writeReg rd (result.setWidth 8) with scratch := result, pc := s.pc + 3, stage := .fetch }, [])

/-- The tick table of R120, MOV_RM at any address: the store at tick 4, or there the fault (R142)
with memory unchanged. That ticks of a halted machine change nothing is D3 (log entry 7). -/
def Obligations.StoreTicks : Prop :=
  ∀ (n : Nat) (s : State) (addr : Byte) (rs : RegIdx), s.Ready →
    s.HoldsAt n s.pc.toNat [0x03, addr, rs.setWidth 8] →
    let e := { s with inflight := ⟨3, .regMem, 0, rs, addr⟩, stage := .execute }
    (runTicks n 1 s).1 = { s with inflight := ⟨3, .none, 0, 0, 0⟩, stage := .decode } ∧
    (runTicks n 2 s).1 = e ∧ (runTicks n 3 s).1 = { e with stage := .memory } ∧
    (addr.toNat < n →
      (runTicks n 4 s).1 = { e.storeByte addr.toNat (s.readReg rs) with stage := .writeback } ∧
      runTicks n 5 s =
        ({ e.storeByte addr.toNat (s.readReg rs) with pc := s.pc + 3, stage := .fetch }, [])) ∧
    (n ≤ addr.toNat → ∀ k, 4 ≤ k → runTicks n k s =
      ({ e with halted := true, stage := .memory }, [⟨.dataAddressOutOfRange, addr.toNat⟩]))

/-- The tick table of R121, MOV_MR at any address: the byte in `scratch` at tick 4 and in `x[rd]` at
tick 5, or the fault (R142) at tick 4 with `scratch` and the register unchanged. That ticks of a
halted machine change nothing is D3 (log entry 7). -/
def Obligations.LoadTicks : Prop :=
  ∀ (n : Nat) (s : State) (rd : RegIdx) (addr : Byte), s.Ready →
    s.HoldsAt n s.pc.toNat [0x04, rd.setWidth 8, addr] →
    let e := { s with inflight := ⟨4, .memReg, rd, 0, addr⟩, stage := .execute }
    let loaded := { e with scratch := (s.readByte addr.toNat).setWidth 16 }
    (runTicks n 1 s).1 = { s with inflight := ⟨4, .none, 0, 0, 0⟩, stage := .decode } ∧
    (runTicks n 2 s).1 = e ∧ (runTicks n 3 s).1 = { e with stage := .memory } ∧
    (addr.toNat < n →
      (runTicks n 4 s).1 = { loaded with stage := .writeback } ∧
      runTicks n 5 s =
        ({ loaded.writeReg rd (s.readByte addr.toNat) with pc := s.pc + 3, stage := .fetch }, [])) ∧
    (n ≤ addr.toNat → ∀ k, 4 ≤ k → runTicks n k s =
      ({ e with halted := true, stage := .memory }, [⟨.dataAddressOutOfRange, addr.toNat⟩]))

/-- The tick table of R130, JMP at any address: the target in `scratch` at tick 3, in `pc` at tick 5
with nothing added, or there the fault (R143; D7) with `pc` unchanged. That ticks of a halted
machine change nothing is D3 (log entry 7). -/
def Obligations.JumpTicks : Prop :=
  ∀ (n : Nat) (s : State) (target : Byte), s.Ready →
    s.HoldsAt n s.pc.toNat [0x07, target] →
    let e := { s with inflight := ⟨7, .imm, 0, 0, target⟩, stage := .execute }
    let resolved := { e with scratch := target.setWidth 16 }
    (runTicks n 1 s).1 = { s with inflight := ⟨7, .none, 0, 0, 0⟩, stage := .decode } ∧
    (runTicks n 2 s).1 = e ∧ (runTicks n 3 s).1 = { resolved with stage := .memory } ∧
    (runTicks n 4 s).1 = { resolved with stage := .writeback } ∧
    (target.toNat < n → runTicks n 5 s =
      ({ resolved with pc := target.setWidth 16, stage := .fetch }, [])) ∧
    (n ≤ target.toNat → ∀ k, 5 ≤ k → runTicks n k s =
      ({ resolved with halted := true, stage := .writeback }, [⟨.jumpTargetOutOfRange, target.toNat⟩]))

/-! ### Memory, hidden state, and the host's operations -/

/-- Instruction fetch sees every earlier store (R43): a MOV_RM completes and adds 3 to `pc` wherever
it stores, its own bytes included; and when it stores over the next instruction's opcode byte, the
next step runs what was stored: a 0 is HALT, a 1 is NOP, a byte of 8 or more is INVALID. The numbers
3 and 1 are D1, MOV_RM being the store D2 (log entry 4); a step is one instruction (log entry 1). -/
def Obligations.AStoreChangesTheInstructionFetchedNext : Prop :=
  ∀ (s : State) (addr : Byte) (rs : RegIdx), s.Ready → s.mem.wf = true →
    s.HoldsAt Config.memSize s.pc.toNat [0x03, addr, rs.setWidth 8] →
    ∃ t, step s = .next t ∧ t.Ready ∧ t.pc.toNat = s.pc.toNat + 3 ∧
      t.readByte addr.toNat = s.readReg rs ∧
      (addr.toNat = s.pc.toNat + 3 →
        (s.readReg rs = 0 → step t = exec .halt t) ∧ (s.readReg rs = 1 → step t = exec .nop t) ∧
        (8 ≤ (s.readReg rs).toNat → step t = exec .invalid t))

/-- `inflight` and `scratch` never show (R25): two machines at Fetch that agree on what `observe`
shows agree on it after any number of ticks, and notify the same, whatever `inflight` and `scratch`
held. That ticks of a halted machine change nothing is D3 (log entry 7). The form of the
notification is D12 (log entry 9). -/
def Obligations.HiddenStateNeverShows : Prop :=
  ∀ (n k : Nat) (s t : State), s.stage = .fetch → t.stage = .fetch → s.observe = t.observe →
    (runTicks n k s).1.observe = (runTicks n k t).1.observe ∧
    (runTicks n k s).2 = (runTicks n k t).2

/-- The reset state (R170), and that reset from any state gives it (R172); D4 and D20, log entries 7
and 16. The in-flight record's fields are D10 (log entry 8). -/
def Obligations.ResetValues : Prop :=
  ∀ (s : State), hostReset s = State.reset ∧ (∀ a, State.reset.readByte a = 0) ∧
    (∀ r, State.reset.readReg r = 0) ∧ State.reset.pc = 0 ∧ State.reset.halted = false ∧
    State.reset.stage = .fetch ∧ State.reset.inflight = ⟨0, .none, 0, 0, 0⟩ ∧ State.reset.scratch = 0

/-- A machine reset and ticked with no load halts cleanly at tick 3 and stays (R171; D3, D4). -/
def Obligations.ResetTickedAloneHalts : Prop :=
  ∀ k, (runTicks Config.memSize k State.reset).2 = [] ∧
    (ticks k State.reset).observe = { State.reset.observe with halted := decide (3 ≤ k) }

/-- `load` (R173): each named byte and register holds the last value given for it (the last of
several is the model's choice, log entry 21), the others keep theirs, `pc` is 0, and `halted`,
`stage`, `inflight` and `scratch` are not touched. That `load` sets `pc` to 0 and touches nothing
else is D14; that it is a function of any state, its use between reset and the first tick being the
host's duty, is the model's form (log entry 16). -/
def Obligations.LoadSetsWhatItNames : Prop :=
  ∀ (s : State) (image : List (Byte × Byte)) (values : List (RegIdx × Byte)), s.mem.wf = true →
    let t := s.load image values
    (∀ a, t.readByte a =
      ((image.reverse.find? fun p => p.1.toNat = a).map Prod.snd).getD (s.readByte a)) ∧
    (∀ r, t.readReg r =
      ((values.reverse.find? fun p => p.1 = r).map Prod.snd).getD (s.readReg r)) ∧
    t.pc = 0 ∧ t.halted = s.halted ∧ t.stage = s.stage ∧ t.inflight = s.inflight ∧
    t.scratch = s.scratch

/-- The loader places instructions one after another from address 0 (R66, R64): in the launch state
of a program (R174; the numbers in its bytes D1, log entry 4), each instruction line's bytes stand
at the sum of the lengths of the instruction lines before it; register initialisers, ignored lines
(R62) and unrecognised mnemonics (R65) emit none. Lines R64 gives no meaning are refused, the
model's choice (log entry 14). The register values (R63) are the subject of
`LoadedProgramsSetRegistersAndLeaveTheRestZero`. That `load` touches nothing else is D14 (log entry
16). -/
def Obligations.LoadedProgramsHoldTheirInstructionsInOrder : Prop :=
  (∀ (p before after : List Line) (line : Line) (i : Instr) (s : State),
    loadProgram p = some s → p = before ++ line :: after → lineInstr line = some i →
    s.Launch ∧ s.pc = 0 ∧
      s.HoldsAt Config.memSize ((before.filterMap lineInstr).map Instr.length).sum (encode i)) ∧
  (∀ reg value, lineBytes (.init reg value) = []) ∧ lineBytes .ignored = [] ∧
  ∀ operands, lineBytes (.instr .unrecognized operands) = []

/-- The next step runs an instruction placed by `withFetchWord` (the model's host interface, log
entry 12). How a table word numbers its bits is log entry 11. -/
def Obligations.APlacedInstructionRunsNext : Prop :=
  ∀ (s : State) (nbits w : Nat) (i : Instr), s.mem.wf = true → decodeTableWord nbits w = some i →
    step (s.withFetchWord nbits w) = exec i (s.withFetchWord nbits w)

/-! ### The stage order, the bounds comparison, and the launch registers -/

/-- The stage order (R17): `stage` is one of five, Fetch at reset, and a machine that runs on from
Fetch passes Fetch, Decode, Execute, Memory, Writeback in that cyclic order for as long as it is not
halted. -/
def Obligations.StageCyclesInItsOrder : Prop :=
  let order : List Stage := [.fetch, .decode, .execute, .memory, .writeback]
  (∀ st : Stage, st ∈ order) ∧ State.reset.stage = .fetch ∧
    ∀ (n k : Nat) (s : State), s.Ready → (runTicks n k s).1.halted = false →
      (runTicks n k s).1.stage = order.getD (k % 5) .fetch

/-- The widths of addresses and every comparison with `MEM_SIZE` (R31, R32): an address operand
names the addresses 0 to 255 and no other; memory has 256 cells; the store, the load, the jump, the
fetch of the opcode byte and the fetch of the operand bytes go on exactly when the whole value of
their address (for the operand bytes, `pc + len - 1`) is below the memory size, so nothing of it is
lost. Decode's comparison is D6 (log entry 6); a memory size other than 256 is D13 (log entry 3). -/
def Obligations.TheComparisonWithMemSizeIsExact : Prop :=
  Config.memSize = 256 ∧ (∀ addr : Byte, effectiveAddress addr < 256) ∧
  (∀ a : Nat, a < 256 → ∃ addr : Byte, effectiveAddress addr = a) ∧
  (∀ (n : Nat) (s : State) (addr : Byte) (r : RegIdx), s.Ready →
    ((effect n (.movRm addr r) s).state.halted = false ↔ addr.toNat < n) ∧
    ((effect n (.movMr r addr) s).state.halted = false ↔ addr.toNat < n) ∧
    ((effect n (.jmp addr) s).state.halted = false ↔ addr.toNat < n) ∧
    ((tickReply n s).state.halted = false ↔ s.pc.toNat < n)) ∧
  ∀ (n : Nat) (s : State), s.stage = .decode → s.halted = false →
    2 ≤ s.inflight.op.toNat → s.inflight.op.toNat ≤ 7 →
    ((tickReply n s).state.halted = false ↔
      s.pc.toNat + (if s.inflight.op = 7 then 2 else 3) - 1 < n)

/-- The launch registers of a loaded program (R63): each holds the value of its initialiser line, or
0 without one, and every byte after the program's is 0 (R68). Of several initialisers of one
register the last counts, the model's choice (log entry 21); values and lines the spec gives no
meaning are refused, the model's choice (log entry 14). -/
def Obligations.LoadedProgramsSetRegistersAndLeaveTheRestZero : Prop :=
  ∀ (p : List Line) (s : State), loadProgram p = some s →
    (∀ r : RegIdx, (s.readReg r).toNat = (p.reverse.findSome? (initialiserOf r)).getD 0) ∧
    ∀ a, ((p.filterMap lineInstr).map Instr.length).sum ≤ a → s.readByte a = 0
end

