-- ==== Sys2Proof/Laws/Decode.lean ====
section
/-! SUPPORT. Lemmas about the opcode map, the register-index check and the pieces of the decoder. -/

namespace Sys2Proof

/-! ### The opcode map -/

theorem classify_of_le {b : Byte} (h : b.toNat ≤ 7) : classify b = b := by
  have : b < opInvalid := by simp [opInvalid, BitVec.lt_def]; omega
  simp [classify, this]

theorem classify_of_ge {b : Byte} (h : 8 ≤ b.toNat) : classify b = opInvalid := by
  have : ¬ b < opInvalid := by simp [opInvalid, BitVec.lt_def]; omega
  simp [classify, this]

theorem classify_eq_invalid_iff (b : Byte) : classify b = opInvalid ↔ 8 ≤ b.toNat := by
  constructor
  · intro h
    by_contra hb
    rw [classify_of_le (by omega)] at h
    rw [h] at hb
    exact hb (by decide)
  · exact classify_of_ge

/-- A byte at most 7 is one of the eight opcode numbers. -/
theorem opcode_cases {b : Byte} (h : b.toNat ≤ 7) :
    b = opHalt ∨ b = opNop ∨ b = opMovRr ∨ b = opMovRm ∨ b = opMovMr ∨ b = opAddRr ∨
      b = opSubRr ∨ b = opJmp := by
  have key : ∀ k : Nat, b.toNat = k → b = BitVec.ofNat 8 k := fun k hk => by
    rw [← hk]
    simp
  have hk : b.toNat = 0 ∨ b.toNat = 1 ∨ b.toNat = 2 ∨ b.toNat = 3 ∨ b.toNat = 4 ∨ b.toNat = 5 ∨
      b.toNat = 6 ∨ b.toNat = 7 := by omega
  rcases hk with h | h | h | h | h | h | h | h <;> rw [key _ h] <;> decide

@[simp] theorem opLength_halt : opLength opHalt = 1 := rfl
@[simp] theorem opLength_nop : opLength opNop = 1 := rfl
@[simp] theorem opLength_movRr : opLength opMovRr = 3 := rfl
@[simp] theorem opLength_movRm : opLength opMovRm = 3 := rfl
@[simp] theorem opLength_movMr : opLength opMovMr = 3 := rfl
@[simp] theorem opLength_addRr : opLength opAddRr = 3 := rfl
@[simp] theorem opLength_subRr : opLength opSubRr = 3 := rfl
@[simp] theorem opLength_jmp : opLength opJmp = 2 := rfl
@[simp] theorem opLength_invalid : opLength opInvalid = 1 := rfl

/-! ### The register-index check -/

/-- A byte at most 7 passes, and is the index it says. -/
theorem regIndex_of_le {b : Byte} (h : b.toNat ≤ 7) : regIndex b = some (b.setWidth 3) := by
  have hlt : b.toNat < Config.regCount := Nat.lt_succ_of_le h
  rw [regIndex, if_pos hlt]
  rfl

/-- A byte above 7 does not pass. -/
theorem regIndex_of_gt {b : Byte} (h : 7 < b.toNat) : regIndex b = none := by
  have hge : ¬ b.toNat < Config.regCount := Nat.not_lt_of_le h
  rw [regIndex, if_neg hge]

theorem regByte_toNat (r : RegIdx) : (regByte r).toNat = r.toNat := by
  have hr := r.isLt
  simp only [regByte, BitVec.toNat_setWidth]
  omega

/-- Every index fits its byte and is read back whole. -/
@[simp] theorem regIndex_regByte (r : RegIdx) : regIndex (regByte r) = some r := by
  have hr := r.isLt
  rw [regIndex_of_le (by rw [regByte_toNat]; omega)]
  congr 1
  apply BitVec.eq_of_toNat_eq
  rw [BitVec.toNat_setWidth, regByte_toNat]
  omega

/-- A byte that passes the check is the byte of its index: no bit of it is dropped. -/
theorem regByte_of_regIndex {b : Byte} {r : RegIdx} (h : regIndex b = some r) : b = regByte r := by
  rcases Nat.lt_or_ge 7 b.toNat with hb | hb
  · rw [regIndex_of_gt hb] at h
    cases h
  · rw [regIndex_of_le hb, Option.some.injEq] at h
    subst h
    apply BitVec.eq_of_toNat_eq
    rw [regByte_toNat, BitVec.toNat_setWidth]
    omega

theorem regIndex_eq_none_iff (b : Byte) : regIndex b = none ↔ 7 < b.toNat := by
  rcases Nat.lt_or_ge 7 b.toNat with hb | hb
  · simp [regIndex_of_gt hb, hb]
  · simp [regIndex_of_le hb, hb]

/-! ### More bytes than an instruction needs change nothing -/

/-- Bytes after a decoded instruction do not matter. -/
theorem decode_append {bytes : List Byte} {i : Instr} (rest : List Byte) (h : decode bytes = .ok i) :
    decode (bytes ++ rest) = .ok i := by
  cases bytes with
  | nil => cases h
  | cons b0 ops =>
    simp only [decode, List.cons_append] at h ⊢
    split at h
    · rename_i hc
      rw [if_pos hc]
      exact h
    · rename_i hc
      rw [if_neg hc]
      split at h
      · cases h
      · rename_i hl
        rw [if_neg (by simp only [List.length_append]; omega)]
        have hle : (classify b0).toNat ≤ 7 := by
          by_contra hb
          exact hc ((classify_eq_invalid_iff b0).2 (by
            by_contra hb0
            exact hb (by rw [classify_of_le (by omega)]; omega)))
        rw [← h]
        congr 1
        match ops with
        | [] =>
          rcases opcode_cases hle with e | e | e | e | e | e | e | e <;>
            first
              | (rw [e] at hl; simp at hl; done)
              | (rw [e]; rfl)
        | [b1] =>
          rcases opcode_cases hle with e | e | e | e | e | e | e | e <;>
            first
              | (rw [e] at hl; simp at hl; done)
              | (rw [e]; rfl)
        | b1 :: b2 :: r => rfl

namespace Machine

@[simp] theorem effectiveAddress_eq (addr : Byte) : effectiveAddress addr = addr.toNat := by
  have := addr.isLt
  simp only [effectiveAddress, zext16, BitVec.toNat_setWidth]
  omega

@[simp] theorem zext16_toNat (b : Byte) : (zext16 b).toNat = b.toNat := by
  have := b.isLt
  simp only [zext16, BitVec.toNat_setWidth]
  omega

theorem lowByte_toNat (v : Wide) : (lowByte v).toNat = v.toNat % 256 := by
  simp [lowByte]

@[simp] theorem lowByte_zext16 (b : Byte) : lowByte (zext16 b) = b := by
  apply BitVec.eq_of_toNat_eq
  rw [lowByte_toNat, zext16_toNat]
  have := b.isLt
  omega

/-- The unreduced sum (R82: 0 to 510). -/
theorem aluAdd_toNat (a b : Byte) : (aluAdd a b).toNat = a.toNat + b.toNat := by
  have := a.isLt
  have := b.isLt
  simp only [aluAdd, BitVec.toNat_add, zext16_toNat]
  omega

/-- The 16-bit difference (R82). -/
theorem aluSub_toNat (a b : Byte) : (aluSub a b).toNat = (65536 - b.toNat + a.toNat) % 65536 := by
  simp only [aluSub, BitVec.toNat_sub, zext16_toNat]

@[simp] theorem aluPass_eq (b : Byte) : aluPass b = zext16 b := rfl

theorem inBounds_iff (n a : Nat) : inBounds n a = true ↔ a < n := by simp [inBounds]

/-- At the hardware's size every address operand is in bounds (R39). -/
@[simp] theorem inBounds_byte (b : Byte) : inBounds Config.memSize b.toNat = true := by
  have h : b.toNat < Config.memSize := b.isLt
  exact (inBounds_iff _ _).2 h

end Machine
end Sys2Proof
end

