-- ==== Sys2Proof/Laws/State.lean ====
section
/-! SUPPORT. One lemma per field per update of the state, and what a register or byte read sees of an update; all by unfolding, so that no proof unfolds a record update. -/

namespace Sys2Proof.Machine

/-! ### halt -/

@[simp] theorem State.halt_mem (s : State) : (s.halt).mem = s.mem := rfl
@[simp] theorem State.halt_regs (s : State) : (s.halt).regs = s.regs := rfl
@[simp] theorem State.halt_pc (s : State) : (s.halt).pc = s.pc := rfl
@[simp] theorem State.halt_halted (s : State) : (s.halt).halted = true := rfl
@[simp] theorem State.halt_stage (s : State) : (s.halt).stage = s.stage := rfl
@[simp] theorem State.halt_inflight (s : State) : (s.halt).inflight = s.inflight := rfl
@[simp] theorem State.halt_scratch (s : State) : (s.halt).scratch = s.scratch := rfl
@[simp] theorem State.readByte_halt (s : State) (x : Nat) : (s.halt).readByte x = s.readByte x := rfl
@[simp] theorem State.readReg_halt (s : State) (q : RegIdx) : (s.halt).readReg q = s.readReg q := rfl

/-! ### storeByte -/

@[simp] theorem State.storeByte_mem (s : State) (a : Nat) (v : Byte) : (s.storeByte a v).mem = s.mem.write a v := rfl
@[simp] theorem State.storeByte_regs (s : State) (a : Nat) (v : Byte) : (s.storeByte a v).regs = s.regs := rfl
@[simp] theorem State.storeByte_pc (s : State) (a : Nat) (v : Byte) : (s.storeByte a v).pc = s.pc := rfl
@[simp] theorem State.storeByte_halted (s : State) (a : Nat) (v : Byte) : (s.storeByte a v).halted = s.halted := rfl
@[simp] theorem State.storeByte_stage (s : State) (a : Nat) (v : Byte) : (s.storeByte a v).stage = s.stage := rfl
@[simp] theorem State.storeByte_inflight (s : State) (a : Nat) (v : Byte) : (s.storeByte a v).inflight = s.inflight := rfl
@[simp] theorem State.storeByte_scratch (s : State) (a : Nat) (v : Byte) : (s.storeByte a v).scratch = s.scratch := rfl
@[simp] theorem State.readReg_storeByte (s : State) (a : Nat) (v : Byte) (q : RegIdx) : (s.storeByte a v).readReg q = s.readReg q := rfl

/-! ### writeReg -/

@[simp] theorem State.writeReg_mem (s : State) (r : RegIdx) (v : Byte) : (s.writeReg r v).mem = s.mem := rfl
@[simp] theorem State.writeReg_regs (s : State) (r : RegIdx) (v : Byte) : (s.writeReg r v).regs = s.regs.set r.toNat v := rfl
@[simp] theorem State.writeReg_pc (s : State) (r : RegIdx) (v : Byte) : (s.writeReg r v).pc = s.pc := rfl
@[simp] theorem State.writeReg_halted (s : State) (r : RegIdx) (v : Byte) : (s.writeReg r v).halted = s.halted := rfl
@[simp] theorem State.writeReg_stage (s : State) (r : RegIdx) (v : Byte) : (s.writeReg r v).stage = s.stage := rfl
@[simp] theorem State.writeReg_inflight (s : State) (r : RegIdx) (v : Byte) : (s.writeReg r v).inflight = s.inflight := rfl
@[simp] theorem State.writeReg_scratch (s : State) (r : RegIdx) (v : Byte) : (s.writeReg r v).scratch = s.scratch := rfl
@[simp] theorem State.readByte_writeReg (s : State) (r : RegIdx) (v : Byte) (x : Nat) : (s.writeReg r v).readByte x = s.readByte x := rfl

/-! ### capture -/

@[simp] theorem State.capture_mem (s : State) (i : Inflight) : (s.capture i).mem = s.mem := rfl
@[simp] theorem State.capture_regs (s : State) (i : Inflight) : (s.capture i).regs = s.regs := rfl
@[simp] theorem State.capture_pc (s : State) (i : Inflight) : (s.capture i).pc = s.pc := rfl
@[simp] theorem State.capture_halted (s : State) (i : Inflight) : (s.capture i).halted = s.halted := rfl
@[simp] theorem State.capture_stage (s : State) (i : Inflight) : (s.capture i).stage = s.stage := rfl
@[simp] theorem State.capture_inflight (s : State) (i : Inflight) : (s.capture i).inflight = i := rfl
@[simp] theorem State.capture_scratch (s : State) (i : Inflight) : (s.capture i).scratch = s.scratch := rfl
@[simp] theorem State.readByte_capture (s : State) (i : Inflight) (x : Nat) : (s.capture i).readByte x = s.readByte x := rfl
@[simp] theorem State.readReg_capture (s : State) (i : Inflight) (q : RegIdx) : (s.capture i).readReg q = s.readReg q := rfl

/-! ### setScratch -/

@[simp] theorem State.setScratch_mem (s : State) (v : Wide) : (s.setScratch v).mem = s.mem := rfl
@[simp] theorem State.setScratch_regs (s : State) (v : Wide) : (s.setScratch v).regs = s.regs := rfl
@[simp] theorem State.setScratch_pc (s : State) (v : Wide) : (s.setScratch v).pc = s.pc := rfl
@[simp] theorem State.setScratch_halted (s : State) (v : Wide) : (s.setScratch v).halted = s.halted := rfl
@[simp] theorem State.setScratch_stage (s : State) (v : Wide) : (s.setScratch v).stage = s.stage := rfl
@[simp] theorem State.setScratch_inflight (s : State) (v : Wide) : (s.setScratch v).inflight = s.inflight := rfl
@[simp] theorem State.setScratch_scratch (s : State) (v : Wide) : (s.setScratch v).scratch = v := rfl
@[simp] theorem State.readByte_setScratch (s : State) (v : Wide) (x : Nat) : (s.setScratch v).readByte x = s.readByte x := rfl
@[simp] theorem State.readReg_setScratch (s : State) (v : Wide) (q : RegIdx) : (s.setScratch v).readReg q = s.readReg q := rfl

/-! ### goTo -/

@[simp] theorem State.goTo_mem (s : State) (st : Stage) : (s.goTo st).mem = s.mem := rfl
@[simp] theorem State.goTo_regs (s : State) (st : Stage) : (s.goTo st).regs = s.regs := rfl
@[simp] theorem State.goTo_pc (s : State) (st : Stage) : (s.goTo st).pc = s.pc := rfl
@[simp] theorem State.goTo_halted (s : State) (st : Stage) : (s.goTo st).halted = s.halted := rfl
@[simp] theorem State.goTo_stage (s : State) (st : Stage) : (s.goTo st).stage = st := rfl
@[simp] theorem State.goTo_inflight (s : State) (st : Stage) : (s.goTo st).inflight = s.inflight := rfl
@[simp] theorem State.goTo_scratch (s : State) (st : Stage) : (s.goTo st).scratch = s.scratch := rfl
@[simp] theorem State.readByte_goTo (s : State) (st : Stage) (x : Nat) : (s.goTo st).readByte x = s.readByte x := rfl
@[simp] theorem State.readReg_goTo (s : State) (st : Stage) (q : RegIdx) : (s.goTo st).readReg q = s.readReg q := rfl

/-! ### setPc -/

@[simp] theorem State.setPc_mem (s : State) (t : Wide) : (s.setPc t).mem = s.mem := rfl
@[simp] theorem State.setPc_regs (s : State) (t : Wide) : (s.setPc t).regs = s.regs := rfl
@[simp] theorem State.setPc_pc (s : State) (t : Wide) : (s.setPc t).pc = t := rfl
@[simp] theorem State.setPc_halted (s : State) (t : Wide) : (s.setPc t).halted = s.halted := rfl
@[simp] theorem State.setPc_stage (s : State) (t : Wide) : (s.setPc t).stage = s.stage := rfl
@[simp] theorem State.setPc_inflight (s : State) (t : Wide) : (s.setPc t).inflight = s.inflight := rfl
@[simp] theorem State.setPc_scratch (s : State) (t : Wide) : (s.setPc t).scratch = s.scratch := rfl
@[simp] theorem State.readByte_setPc (s : State) (t : Wide) (x : Nat) : (s.setPc t).readByte x = s.readByte x := rfl
@[simp] theorem State.readReg_setPc (s : State) (t : Wide) (q : RegIdx) : (s.setPc t).readReg q = s.readReg q := rfl

/-! ### advancePc -/

@[simp] theorem State.advancePc_mem (s : State) (k : Nat) : (s.advancePc k).mem = s.mem := rfl
@[simp] theorem State.advancePc_regs (s : State) (k : Nat) : (s.advancePc k).regs = s.regs := rfl
@[simp] theorem State.advancePc_pc (s : State) (k : Nat) : (s.advancePc k).pc = s.pc + BitVec.ofNat 16 k := rfl
@[simp] theorem State.advancePc_halted (s : State) (k : Nat) : (s.advancePc k).halted = s.halted := rfl
@[simp] theorem State.advancePc_stage (s : State) (k : Nat) : (s.advancePc k).stage = s.stage := rfl
@[simp] theorem State.advancePc_inflight (s : State) (k : Nat) : (s.advancePc k).inflight = s.inflight := rfl
@[simp] theorem State.advancePc_scratch (s : State) (k : Nat) : (s.advancePc k).scratch = s.scratch := rfl
@[simp] theorem State.readByte_advancePc (s : State) (k : Nat) (x : Nat) : (s.advancePc k).readByte x = s.readByte x := rfl
@[simp] theorem State.readReg_advancePc (s : State) (k : Nat) (q : RegIdx) : (s.advancePc k).readReg q = s.readReg q := rfl

/-! ### commit -/

@[simp] theorem State.commit_mem (s : State) (rd : RegIdx) : (s.commit rd).mem = s.mem := rfl
@[simp] theorem State.commit_regs (s : State) (rd : RegIdx) : (s.commit rd).regs = s.regs.set rd.toNat (lowByte s.scratch) := rfl
@[simp] theorem State.commit_pc (s : State) (rd : RegIdx) : (s.commit rd).pc = s.pc := rfl
@[simp] theorem State.commit_halted (s : State) (rd : RegIdx) : (s.commit rd).halted = s.halted := rfl
@[simp] theorem State.commit_stage (s : State) (rd : RegIdx) : (s.commit rd).stage = s.stage := rfl
@[simp] theorem State.commit_inflight (s : State) (rd : RegIdx) : (s.commit rd).inflight = s.inflight := rfl
@[simp] theorem State.commit_scratch (s : State) (rd : RegIdx) : (s.commit rd).scratch = s.scratch := rfl
@[simp] theorem State.readByte_commit (s : State) (rd : RegIdx) (x : Nat) : (s.commit rd).readByte x = s.readByte x := rfl

/-! ### Replies -/

@[simp] theorem Reply.quiet_state (s : State) : (Reply.quiet s).state = s := rfl
@[simp] theorem Reply.quiet_notice (s : State) : (Reply.quiet s).notice = none := rfl
@[simp] theorem Reply.raise_state (f : FaultName) (v : Nat) (s : State) : (Reply.raise f v s).state = s.halt := rfl
@[simp] theorem Reply.raise_notice (f : FaultName) (v : Nat) (s : State) : (Reply.raise f v s).notice = some ⟨f, v⟩ := rfl

/-! ### Observing -/

@[simp] theorem State.observe_regs (s : State) : s.observe.regs = s.regs := rfl
@[simp] theorem State.observe_pc (s : State) : s.observe.pc = s.pc := rfl
@[simp] theorem State.observe_mem (s : State) : s.observe.mem = s.mem := rfl
@[simp] theorem State.observe_halted (s : State) : s.observe.halted = s.halted := rfl

theorem State.observe_eq_iff (s t : State) :
    s.observe = t.observe ↔ s.regs = t.regs ∧ s.pc = t.pc ∧ s.mem = t.mem ∧ s.halted = t.halted := by
  simp [State.observe]

/-! ### Registers: a write is read back, and other registers keep theirs (R11) -/

theorem State.readReg_writeReg (s : State) (r q : RegIdx) (v : Byte) :
    (s.writeReg r v).readReg q = if r = q then v else s.readReg q := by
  simp [State.readReg, State.writeReg, Vector.getElem_set, BitVec.toNat_inj]

@[simp] theorem State.readReg_writeReg_same (s : State) (r : RegIdx) (v : Byte) :
    (s.writeReg r v).readReg r = v := by simp [State.readReg_writeReg]

theorem State.readReg_writeReg_other (s : State) (r q : RegIdx) (v : Byte) (h : q ≠ r) :
    (s.writeReg r v).readReg q = s.readReg q := by simp [State.readReg_writeReg, Ne.symm h]

theorem State.readReg_commit (s : State) (rd q : RegIdx) :
    (s.commit rd).readReg q = if rd = q then lowByte s.scratch else s.readReg q :=
  State.readReg_writeReg s rd q _

end Sys2Proof.Machine
end

