-- ==== Sys2Proof/Laws/Memory.lean ====
section
/-! SUPPORT. The laws of memory: a byte reads back as written, other bytes keep theirs, every operation keeps the canonical form, and equal reads mean equal memories. -/

namespace Sys2Proof.Machine

/-- A canonical form from a higher address is one from a lower address. -/
theorem Memory.wfFrom_mono {n lo lo' : Nat} {m : Memory} (h : m.wfFrom n lo = true) (hle : lo' ≤ lo) :
    m.wfFrom n lo' = true := by
  cases m with
  | nil => rfl
  | cons e rest =>
    obtain ⟨b, w⟩ := e
    simp only [Memory.wfFrom, Bool.and_eq_true, decide_eq_true_eq] at h ⊢
    exact ⟨⟨⟨by omega, h.1.1.2⟩, h.1.2⟩, h.2⟩

/-- Below its first address a canonical memory reads 0. -/
theorem Memory.read_below {n lo a : Nat} {m : Memory} (h : m.wfFrom n lo = true) (ha : a < lo) :
    m.read a = 0 := by
  induction m generalizing lo with
  | nil => rfl
  | cons e rest ih =>
    obtain ⟨b, w⟩ := e
    simp only [Memory.wfFrom, Bool.and_eq_true, decide_eq_true_eq] at h
    simp only [Memory.read]
    rw [if_neg (by omega)]
    exact ih h.2 (by omega)

/-- The read after a write, from any start of the canonical form. -/
theorem Memory.read_write_from {n lo a x : Nat} {m : Memory} (v : Byte) (h : m.wfFrom n lo = true) :
    (m.write a v).read x = if x = a then v else m.read x := by
  induction m generalizing lo with
  | nil =>
    simp only [Memory.write]
    split
    · rename_i hv
      simp [Memory.read, hv]
    · simp [Memory.read]
  | cons e rest ih =>
    obtain ⟨b, w⟩ := e
    simp only [Memory.wfFrom, Bool.and_eq_true, decide_eq_true_eq] at h
    have below : ∀ y, y ≤ b → Memory.read rest y = 0 := fun y hy => Memory.read_below h.2 (by omega)
    simp only [Memory.write]
    split
    · rename_i hab
      split
      · rename_i hv
        by_cases hx : x = a
        · subst hx
          simp [Memory.read, hv, below x (by omega), Nat.ne_of_lt hab]
        · simp [hx]
      · by_cases hx : x = a
        · simp [Memory.read, hx]
        · simp [Memory.read, hx]
    · split
      · rename_i hab
        subst hab
        split
        · rename_i hv
          by_cases hx : x = a
          · subst hx
            simp [hv, below x (by omega)]
          · simp [Memory.read, hx]
        · by_cases hx : x = a
          · simp [Memory.read, hx]
          · simp [Memory.read, hx]
      · rename_i hlt hne
        by_cases hx : x = b
        · subst hx
          simp [Memory.read, Ne.symm hne]
        · simp only [Memory.read, if_neg hx]
          exact ih h.2

/-- A write inside memory keeps the canonical form, from any start at or below its address. -/
theorem Memory.write_wfFrom {n lo a : Nat} {m : Memory} (v : Byte) (h : m.wfFrom n lo = true)
    (hlo : lo ≤ a) (ha : a < n) : (m.write a v).wfFrom n lo = true := by
  induction m generalizing lo with
  | nil =>
    simp only [Memory.write]
    split
    · rfl
    · rename_i hv
      simpa [Memory.wfFrom, hlo, ha] using hv
  | cons e rest ih =>
    obtain ⟨b, w⟩ := e
    have h' := h
    simp only [Memory.wfFrom, Bool.and_eq_true, decide_eq_true_eq] at h
    simp only [Memory.write]
    split
    · rename_i hab
      split
      · exact h'
      · rename_i hv
        simp only [Memory.wfFrom, Bool.and_eq_true, decide_eq_true_eq]
        exact ⟨⟨⟨hlo, ha⟩, hv⟩, ⟨⟨by omega, h.1.1.2⟩, h.1.2⟩, h.2⟩
    · split
      · rename_i hab
        subst hab
        split
        · exact Memory.wfFrom_mono h.2 (by omega)
        · rename_i hv
          simp only [Memory.wfFrom, Bool.and_eq_true, decide_eq_true_eq]
          exact ⟨⟨⟨hlo, ha⟩, hv⟩, h.2⟩
      · simp only [Memory.wfFrom, Bool.and_eq_true, decide_eq_true_eq]
        exact ⟨h.1, ih h.2 (by omega)⟩

/-- Two canonical memories that read alike are the same list. -/
theorem Memory.ext_from {n lo : Nat} {m m' : Memory} (h : m.wfFrom n lo = true)
    (h' : m'.wfFrom n lo = true) (hr : ∀ a, m.read a = m'.read a) : m = m' := by
  induction m generalizing lo m' with
  | nil =>
    cases m' with
    | nil => rfl
    | cons e rest =>
      obtain ⟨b, w⟩ := e
      simp only [Memory.wfFrom, Bool.and_eq_true, decide_eq_true_eq] at h'
      have := hr b
      simp only [Memory.read, if_true] at this
      exact absurd this.symm h'.1.2
  | cons e rest ih =>
    obtain ⟨b, w⟩ := e
    simp only [Memory.wfFrom, Bool.and_eq_true, decide_eq_true_eq] at h
    cases m' with
    | nil =>
      have := hr b
      simp only [Memory.read, if_true] at this
      exact absurd this h.1.2
    | cons e' rest' =>
      obtain ⟨b', w'⟩ := e'
      simp only [Memory.wfFrom, Bool.and_eq_true, decide_eq_true_eq] at h'
      have hb : b = b' := by
        have h1 := hr b
        have h2 := hr b'
        simp only [Memory.read, if_true] at h1 h2
        rcases Nat.lt_trichotomy b b' with hlt | heq | hgt
        · rw [if_neg (by omega), Memory.read_below h'.2 (by omega)] at h1
          exact absurd h1 h.1.2
        · exact heq
        · rw [if_neg (by omega), Memory.read_below h.2 (by omega)] at h2
          exact absurd h2.symm h'.1.2
      subst hb
      have hw : w = w' := by simpa [Memory.read] using hr b
      subst hw
      congr 1
      refine ih h.2 h'.2 fun a => ?_
      by_cases ha : a = b
      · subst ha
        rw [Memory.read_below h.2 (by omega), Memory.read_below h'.2 (by omega)]
      · simpa [Memory.read, ha] using hr a

/-! ### The same for a memory of `n` bytes, and for the state's memory -/

theorem Memory.wf_iff (m : Memory) : m.wf = true ↔ m.wfAt Config.memSize = true := Iff.rfl

/-- The reset memory is canonical. -/
@[simp] theorem Memory.wfAt_nil (n : Nat) : Memory.wfAt n [] = true := rfl

theorem Memory.write_wfAt {n a : Nat} {m : Memory} (v : Byte) (h : m.wfAt n = true) (ha : a < n) :
    (m.write a v).wfAt n = true :=
  Memory.write_wfFrom v h (Nat.zero_le a) ha

theorem Memory.ext_wfAt {n : Nat} {m m' : Memory} (h : m.wfAt n = true) (h' : m'.wfAt n = true)
    (hr : ∀ a, m.read a = m'.read a) : m = m' :=
  Memory.ext_from h h' hr

/-- What a read sees after a store (R35: "a written byte reads back as written"). -/
theorem State.readByte_storeByte {n : Nat} {s : State} (h : s.mem.wfAt n = true) (a x : Nat) (v : Byte) :
    (s.storeByte a v).readByte x = if x = a then v else s.readByte x :=
  Memory.read_write_from v h

theorem State.readByte_storeByte_same {n : Nat} {s : State} (h : s.mem.wfAt n = true) (a : Nat) (v : Byte) :
    (s.storeByte a v).readByte a = v := by simp [State.readByte_storeByte h]

theorem State.readByte_storeByte_other {n : Nat} {s : State} (h : s.mem.wfAt n = true) {a x : Nat}
    (v : Byte) (hx : x ≠ a) : (s.storeByte a v).readByte x = s.readByte x := by
  simp [State.readByte_storeByte h, hx]

/-- The byte beyond a canonical memory reads 0. -/
theorem Memory.read_outside {n lo a : Nat} {m : Memory} (h : m.wfFrom n lo = true) (ha : n ≤ a) :
    m.read a = 0 := by
  induction m generalizing lo with
  | nil => rfl
  | cons e rest ih =>
    obtain ⟨b, w⟩ := e
    simp only [Memory.wfFrom, Bool.and_eq_true, decide_eq_true_eq] at h
    simp only [Memory.read]
    rw [if_neg (by omega)]
    exact ih h.2

end Sys2Proof.Machine
end

