-- ==== Sys2Proof/Laws/Stages.lean ====
section
/-! SUPPORT. What a tick can do, said once per stage, and the two ticks of fetch and decode against the instruction-level fetch. -/

namespace Sys2Proof.Machine

/-! ### One tick -/

/-- A tick of a halted machine (R71). -/
theorem tickReply_halted {n : Nat} {s : State} (h : s.halted = true) : tickReply n s = .quiet s := by
  simp [tickReply, h]

/-! A tick of a running machine is its stage's action (R70). -/

theorem tickReply_fetch {n : Nat} {s : State} (h : s.halted = false) (hs : s.stage = .fetch) :
    tickReply n s = fetchStage n s := by simp [tickReply, h, hs]

theorem tickReply_decode {n : Nat} {s : State} (h : s.halted = false) (hs : s.stage = .decode) :
    tickReply n s = decodeStage n s := by simp [tickReply, h, hs]

theorem tickReply_execute {n : Nat} {s : State} (h : s.halted = false) (hs : s.stage = .execute) :
    tickReply n s = executeStage s := by simp [tickReply, h, hs]

theorem tickReply_memory {n : Nat} {s : State} (h : s.halted = false) (hs : s.stage = .memory) :
    tickReply n s = memoryStage n s := by simp [tickReply, h, hs]

theorem tickReply_writeback {n : Nat} {s : State} (h : s.halted = false) (hs : s.stage = .writeback) :
    tickReply n s = writebackStage n s := by simp [tickReply, h, hs]

/-- A tick is one of six things; to show something of its reply, show it of each (R70, R71). -/
theorem tickReply_cases {P : Reply → Prop} {n : Nat} {s : State}
    (still : s.halted = true → P (.quiet s))
    (fetch : s.halted = false → s.stage = .fetch → P (fetchStage n s))
    (decode : s.halted = false → s.stage = .decode → P (decodeStage n s))
    (execute : s.halted = false → s.stage = .execute → P (executeStage s))
    (memory : s.halted = false → s.stage = .memory → P (memoryStage n s))
    (writeback : s.halted = false → s.stage = .writeback → P (writebackStage n s)) :
    P (tickReply n s) := by
  cases hh : s.halted with
  | true => exact tickReply_halted hh ▸ still hh
  | false =>
    cases hs : s.stage with
    | fetch => exact tickReply_fetch hh hs ▸ fetch hh hs
    | decode => exact tickReply_decode hh hs ▸ decode hh hs
    | execute => exact tickReply_execute hh hs ▸ execute hh hs
    | memory => exact tickReply_memory hh hs ▸ memory hh hs
    | writeback => exact tickReply_writeback hh hs ▸ writeback hh hs

/-! The three things Decode can do (R73). -/

theorem decodeStage_invalid {n : Nat} {s : State} (h : classify s.inflight.op = opInvalid) :
    decodeStage n s = .quiet ((s.capture { s.inflight with op := opInvalid }).goTo .execute) := by
  rw [decodeStage, if_pos h]

theorem decodeStage_valid {n : Nat} {s : State} (h : classify s.inflight.op ≠ opInvalid)
    (ho : operandsInBounds n s.pc (opLength (classify s.inflight.op)) = true) :
    decodeStage n s = .quiet ((s.capture (routeOperands s.inflight (classify s.inflight.op)
      (s.readByte (s.pc.toNat + 1)) (s.readByte (s.pc.toNat + 2)))).goTo .execute) := by
  rw [decodeStage, if_neg h, if_pos ho]

theorem decodeStage_fault {n : Nat} {s : State} (h : classify s.inflight.op ≠ opInvalid)
    (ho : ¬ operandsInBounds n s.pc (opLength (classify s.inflight.op)) = true) :
    decodeStage n s = .raise .operandFetchOutOfRange (firstOutside n s.pc) s := by
  rw [decodeStage, if_neg h, if_neg ho]

/-! The two things Fetch can do (R72). -/

theorem fetchStage_inside {n : Nat} {s : State} (h : s.pc.toNat < n) :
    fetchStage n s = .quiet ((s.capture (fetchedInflight (s.readByte s.pc.toNat))).goTo .decode) := by
  rw [fetchStage, if_pos ((inBounds_iff _ _).2 h)]

theorem fetchStage_outside {n : Nat} {s : State} (h : ¬ s.pc.toNat < n) :
    fetchStage n s = .raise .pcOutOfRange s.pc.toNat s := by
  rw [fetchStage, if_neg (fun hb => h ((inBounds_iff _ _).1 hb))]

/-! Everything each stage can do, with the condition of each case (R72 to R76). -/

theorem fetchStage_cases (n : Nat) (s : State) :
    (s.pc.toNat < n ∧
      fetchStage n s = .quiet ((s.capture (fetchedInflight (s.readByte s.pc.toNat))).goTo .decode)) ∨
    (n ≤ s.pc.toNat ∧ fetchStage n s = .raise .pcOutOfRange s.pc.toNat s) := by
  by_cases h : s.pc.toNat < n
  · exact .inl ⟨h, fetchStage_inside h⟩
  · exact .inr ⟨Nat.le_of_not_lt h, fetchStage_outside h⟩

theorem firstOutside_eq (n : Nat) (pc : Wide) :
    firstOutside n pc = if n ≤ pc.toNat + 1 then pc.toNat + 1 else pc.toNat + 2 := by
  unfold firstOutside inBounds
  by_cases h : pc.toNat + 1 < n <;> simp [h]

theorem operandsInBounds_iff (n : Nat) (pc : Wide) (len : Nat) :
    operandsInBounds n pc len = true ↔ len < 2 ∨ pc.toNat + len - 1 < n := by
  simp [operandsInBounds, inBounds]

theorem decodeStage_cases (n : Nat) (s : State) :
    (8 ≤ s.inflight.op.toNat ∧
      decodeStage n s = .quiet ((s.capture { s.inflight with op := opInvalid }).goTo .execute)) ∨
    (s.inflight.op.toNat ≤ 7 ∧ (opLength s.inflight.op < 2 ∨ s.pc.toNat + opLength s.inflight.op - 1 < n) ∧
      decodeStage n s = .quiet ((s.capture (routeOperands s.inflight s.inflight.op
        (s.readByte (s.pc.toNat + 1)) (s.readByte (s.pc.toNat + 2)))).goTo .execute)) ∨
    (s.inflight.op.toNat ≤ 7 ∧ 2 ≤ opLength s.inflight.op ∧ n ≤ s.pc.toNat + opLength s.inflight.op - 1 ∧
      decodeStage n s = .raise .operandFetchOutOfRange (firstOutside n s.pc) s) := by
  by_cases h8 : 8 ≤ s.inflight.op.toNat
  · exact .inl ⟨h8, decodeStage_invalid (classify_of_ge h8)⟩
  · have hc : classify s.inflight.op = s.inflight.op := classify_of_le (by omega)
    have hne : classify s.inflight.op ≠ opInvalid := fun h => h8 ((classify_eq_invalid_iff _).1 h)
    have hv := decodeStage_valid (n := n) hne
    have hf := decodeStage_fault (n := n) hne
    rw [hc, operandsInBounds_iff] at hv hf
    by_cases ho : opLength s.inflight.op < 2 ∨ s.pc.toNat + opLength s.inflight.op - 1 < n
    · exact .inr (.inl ⟨by omega, ho, hv ho⟩)
    · exact .inr (.inr ⟨by omega, by omega, by omega, hf ho⟩)

theorem isInvalidOp_iff (op : Byte) : isInvalidOp op = true ↔ 8 ≤ op.toNat := by
  simp [isInvalidOp, opInvalid, BitVec.le_def]

theorem executeStage_cases (s : State) :
    (s.inflight.op = opHalt ∧ executeStage s = .quiet (s.halt.goTo .memory)) ∨
    (8 ≤ s.inflight.op.toNat ∧ executeStage s =
      .raise .invalidOpcode (s.readByte s.pc.toNat).toNat (s.goTo .memory)) ∨
    (1 ≤ s.inflight.op.toNat ∧ s.inflight.op.toNat ≤ 7 ∧
      ((∃ v, alu s.inflight.op (s.readReg s.inflight.rd) (s.readReg s.inflight.rs) s.inflight.imm = some v ∧
          executeStage s = .quiet ((s.setScratch v).goTo .memory)) ∨
        (alu s.inflight.op (s.readReg s.inflight.rd) (s.readReg s.inflight.rs) s.inflight.imm = none ∧
          executeStage s = .quiet (s.goTo .memory)))) := by
  by_cases h0 : s.inflight.op = opHalt
  · exact .inl ⟨h0, by rw [executeStage, if_pos h0]⟩
  · by_cases h8 : 8 ≤ s.inflight.op.toNat
    · exact .inr (.inl ⟨h8, by rw [executeStage, if_neg h0, if_pos ((isInvalidOp_iff _).2 h8)]⟩)
    · have hpos : s.inflight.op.toNat ≠ 0 := fun h => h0 (BitVec.eq_of_toNat_eq h)
      refine .inr (.inr ⟨by omega, by omega, ?_⟩)
      rw [executeStage, if_neg h0, if_neg (fun h => h8 ((isInvalidOp_iff _).1 h))]
      cases h : alu s.inflight.op (s.readReg s.inflight.rd) (s.readReg s.inflight.rs) s.inflight.imm with
      | some v => exact .inl ⟨v, rfl, rfl⟩
      | none => exact .inr ⟨rfl, rfl⟩

theorem memoryStage_cases (n : Nat) (s : State) :
    (s.inflight.op = opMovRm ∧ s.inflight.imm.toNat < n ∧ memoryStage n s =
      .quiet ((s.storeByte s.inflight.imm.toNat (s.readReg s.inflight.rs)).goTo .writeback)) ∨
    (s.inflight.op = opMovMr ∧ s.inflight.imm.toNat < n ∧ memoryStage n s =
      .quiet ((s.setScratch (zext16 (s.readByte s.inflight.imm.toNat))).goTo .writeback)) ∨
    ((s.inflight.op = opMovRm ∨ s.inflight.op = opMovMr) ∧ n ≤ s.inflight.imm.toNat ∧
      memoryStage n s = .raise .dataAddressOutOfRange s.inflight.imm.toNat s) ∨
    (s.inflight.op ≠ opMovRm ∧ s.inflight.op ≠ opMovMr ∧ memoryStage n s = .quiet (s.goTo .writeback)) := by
  by_cases hs : s.inflight.op = opMovRm
  · by_cases hb : s.inflight.imm.toNat < n
    · exact .inl ⟨hs, hb, by simp [memoryStage, hs, inBounds, hb]⟩
    · exact .inr (.inr (.inl ⟨.inl hs, by omega, by simp [memoryStage, hs, inBounds, hb]⟩))
  · by_cases hl : s.inflight.op = opMovMr
    · have hne : ¬ opMovMr = opMovRm := by decide
      by_cases hb : s.inflight.imm.toNat < n
      · exact .inr (.inl ⟨hl, hb, by simp [memoryStage, hl, hne, inBounds, hb]⟩)
      · exact .inr (.inr (.inl ⟨.inr hl, by omega, by simp [memoryStage, hl, hne, inBounds, hb]⟩))
    · exact .inr (.inr (.inr ⟨hs, hl, by simp [memoryStage, hs, hl]⟩))

theorem writebackStage_cases (n : Nat) (s : State) :
    (s.inflight.op = opJmp ∧ s.scratch.toNat < n ∧
      writebackStage n s = .quiet ((s.setPc s.scratch).goTo .fetch)) ∨
    (s.inflight.op = opJmp ∧ n ≤ s.scratch.toNat ∧
      writebackStage n s = .raise .jumpTargetOutOfRange s.scratch.toNat s) ∨
    (s.inflight.op ≠ opJmp ∧ writesRegister s.inflight.op = true ∧ writebackStage n s =
      .quiet (((s.commit s.inflight.rd).advancePc (opLength s.inflight.op)).goTo .fetch)) ∨
    (s.inflight.op ≠ opJmp ∧ writesRegister s.inflight.op = false ∧ writebackStage n s =
      .quiet ((s.advancePc (opLength s.inflight.op)).goTo .fetch)) := by
  by_cases hj : s.inflight.op = opJmp
  · by_cases hb : s.scratch.toNat < n
    · exact .inl ⟨hj, hb, by simp [writebackStage, hj, inBounds, hb]⟩
    · exact .inr (.inl ⟨hj, by omega, by simp [writebackStage, hj, inBounds, hb]⟩)
  · cases hw : writesRegister s.inflight.op with
    | true => exact .inr (.inr (.inl ⟨hj, rfl, by simp [writebackStage, hj, hw]⟩))
    | false => exact .inr (.inr (.inr ⟨hj, rfl, by simp [writebackStage, hj, hw]⟩))

@[simp] theorem runTicks_zero (n : Nat) (s : State) : runTicks n 0 s = (s, []) := rfl

theorem runTicks_succ (n k : Nat) (s : State) :
    runTicks n (k + 1) s =
      ((runTicks n k (tickReply n s).state).1,
        (tickReply n s).notice.toList ++ (runTicks n k (tickReply n s).state).2) := rfl

/-- Ticks add up. -/
theorem runTicks_add (n j k : Nat) (s : State) :
    runTicks n (j + k) s =
      ((runTicks n k (runTicks n j s).1).1, (runTicks n j s).2 ++ (runTicks n k (runTicks n j s).1).2) := by
  induction j generalizing s with
  | zero => simp
  | succ j ih => rw [Nat.add_right_comm, runTicks_succ, ih, runTicks_succ, List.append_assoc]

/-! ### The bytes a decoder sees from `pc` -/

theorem fetchWindow_outside {n : Nat} {s : State} (h : n ≤ s.pc.toNat) : fetchWindow n s = [] := by
  have h0 : ¬ s.pc.toNat < n := by omega
  have h1 : ¬ s.pc.toNat + 1 < n := by omega
  have h2 : ¬ s.pc.toNat + 2 < n := by omega
  simp [fetchWindow, inBounds, h0, h1, h2]

theorem fetchWindow_one {n : Nat} {s : State} (h : s.pc.toNat < n) (h' : n ≤ s.pc.toNat + 1) :
    fetchWindow n s = [s.readByte s.pc.toNat] := by
  have h1 : ¬ s.pc.toNat + 1 < n := by omega
  have h2 : ¬ s.pc.toNat + 2 < n := by omega
  simp [fetchWindow, inBounds, h, h1, h2]

theorem fetchWindow_two {n : Nat} {s : State} (h : s.pc.toNat + 1 < n) (h' : n ≤ s.pc.toNat + 2) :
    fetchWindow n s = [s.readByte s.pc.toNat, s.readByte (s.pc.toNat + 1)] := by
  have h0 : s.pc.toNat < n := by omega
  have h2 : ¬ s.pc.toNat + 2 < n := by omega
  simp [fetchWindow, inBounds, h, h0, h2]

theorem fetchWindow_three {n : Nat} {s : State} (h : s.pc.toNat + 2 < n) :
    fetchWindow n s =
      [s.readByte s.pc.toNat, s.readByte (s.pc.toNat + 1), s.readByte (s.pc.toNat + 2)] := by
  have h0 : s.pc.toNat < n := by omega
  have h1 : s.pc.toNat + 1 < n := by omega
  simp [fetchWindow, inBounds, h, h0, h1]

/-- The window never shows a byte outside memory, and all of a whole instruction: with `pc` inside
memory it is the opcode byte and some operand bytes, and it is long enough for a length exactly when
the operand-address test of Decode passes (R73). -/
theorem fetchWindow_inside {n : Nat} {s : State} (h : s.pc.toNat < n) :
    ∃ ops, fetchWindow n s = s.readByte s.pc.toNat :: ops ∧
      (∀ len, 1 ≤ len → len ≤ 3 → (ops.length + 1 < len ↔ operandsInBounds n s.pc len = false)) ∧
      (1 ≤ ops.length → ops.getD 0 0 = s.readByte (s.pc.toNat + 1)) ∧
      (2 ≤ ops.length → ops.getD 1 0 = s.readByte (s.pc.toNat + 2)) := by
  rcases Nat.lt_or_ge (s.pc.toNat + 2) n with h2 | h2
  · refine ⟨_, fetchWindow_three h2, fun len hl hl' => ?_, fun _ => rfl, fun _ => rfl⟩
    simp only [operandsInBounds, inBounds, List.length_cons, List.length_nil, Bool.or_eq_false_iff,
      decide_eq_false_iff_not]
    omega
  · rcases Nat.lt_or_ge (s.pc.toNat + 1) n with h1 | h1
    · refine ⟨_, fetchWindow_two h1 h2, fun len hl hl' => ?_, fun _ => rfl, fun hc => ?_⟩
      · simp only [operandsInBounds, inBounds, List.length_cons, List.length_nil, Bool.or_eq_false_iff,
          decide_eq_false_iff_not]
        omega
      · simp at hc
    · refine ⟨_, fetchWindow_one h h1, fun len hl hl' => ?_, fun hc => ?_, fun hc => ?_⟩
      · simp only [operandsInBounds, inBounds, List.length_nil, Bool.or_eq_false_iff,
          decide_eq_false_iff_not]
        omega
      · simp at hc
      · simp at hc

/-! ### Fetch and decode, as ticks and as one function -/

/-- After Fetch reset the record, routing the operand bytes gives the record of the instruction the
decoder reads from them (R54, R58). -/
theorem routeOperands_fetched {op b1 b2 : Byte} (h : op.toNat ≤ 7) :
    routeOperands (fetchedInflight op) op b1 b2 = inflightOf (decodeOperands op b1 b2) := by
  rcases opcode_cases h with e | e | e | e | e | e | e | e <;> subst e
  · rfl
  · rfl
  · cases h1 : regIndex b1 <;> cases h2 : regIndex b2 <;>
      simp [routeOperands, decodeOperands, inflightOf, fetchedInflight, h1, h2, opHalt, opNop, opMovRr]
  · cases h2 : regIndex b2 <;>
      simp [routeOperands, decodeOperands, inflightOf, fetchedInflight, h2, opHalt, opNop, opMovRr,
        opMovRm, opAddRr, opSubRr]
  · cases h1 : regIndex b1 <;>
      simp [routeOperands, decodeOperands, inflightOf, fetchedInflight, h1, opHalt, opNop, opMovRr,
        opMovRm, opMovMr, opAddRr, opSubRr]
  · cases h1 : regIndex b1 <;> cases h2 : regIndex b2 <;>
      simp [routeOperands, decodeOperands, inflightOf, fetchedInflight, h1, h2, opHalt, opNop, opMovRr,
        opMovRm, opMovMr, opAddRr]
  · cases h1 : regIndex b1 <;> cases h2 : regIndex b2 <;>
      simp [routeOperands, decodeOperands, inflightOf, fetchedInflight, h1, h2, opHalt, opNop, opMovRr,
        opMovRm, opMovMr, opAddRr, opSubRr]
  · rfl

/-- Operand bytes beyond an instruction's own do not matter to it. -/
theorem decodeOperands_congr {op b1 b2 c1 c2 : Byte} (h : op.toNat ≤ 7)
    (h1 : 2 ≤ opLength op → b1 = c1) (h2 : 3 ≤ opLength op → b2 = c2) :
    decodeOperands op b1 b2 = decodeOperands op c1 c2 := by
  rcases opcode_cases h with e | e | e | e | e | e | e | e <;> subst e <;>
    first
      | rfl
      | (rw [h1 (by decide), h2 (by decide)])
      | (rw [h1 (by decide)]; rfl)

theorem opLength_le (op : Byte) : 1 ≤ opLength op ∧ opLength op ≤ 3 := by
  unfold opLength
  split
  · omega
  · split <;> omega

/-- The instruction-level fetch in the decoder's own terms: outside memory; an unrecognised opcode;
an operand byte outside memory; an instruction (R61, R80). -/
theorem fetchInstr_eq (n : Nat) (s : State) :
    fetchInstr n s =
      if s.pc.toNat < n then
        if classify (s.readByte s.pc.toNat) = opInvalid then .ok .invalid
        else if operandsInBounds n s.pc (opLength (classify (s.readByte s.pc.toNat))) then
          .ok (decodeOperands (classify (s.readByte s.pc.toNat)) (s.readByte (s.pc.toNat + 1))
            (s.readByte (s.pc.toNat + 2)))
        else .error (.raise .operandFetchOutOfRange (firstOutside n s.pc)
          ((s.capture (fetchedInflight (s.readByte s.pc.toNat))).goTo .decode))
      else .error (.raise .pcOutOfRange s.pc.toNat s) := by
  by_cases hp : s.pc.toNat < n
  · obtain ⟨ops, hw, hlen, hb1, hb2⟩ := fetchWindow_inside hp
    rw [if_pos hp]
    simp only [fetchInstr, hw, decode]
    by_cases hc : classify (s.readByte s.pc.toNat) = opInvalid
    · simp [hc]
    · simp only [if_neg hc]
      obtain ⟨hl1, hl3⟩ := opLength_le (classify (s.readByte s.pc.toNat))
      by_cases hl : ops.length + 1 < opLength (classify (s.readByte s.pc.toNat))
      · rw [if_pos hl, (hlen _ hl1 hl3).1 hl]
        rfl
      · have hok : operandsInBounds n s.pc (opLength (classify (s.readByte s.pc.toNat))) = true := by
          by_contra hno
          exact hl ((hlen _ hl1 hl3).2 (by simpa using hno))
        rw [if_neg hl, hok]
        have hle : (classify (s.readByte s.pc.toNat)).toNat ≤ 7 := by
          have : ¬ 8 ≤ (s.readByte s.pc.toNat).toNat := fun h8 => hc (classify_of_ge h8)
          rw [classify_of_le (by omega)]
          omega
        simp only [if_true]
        rw [decodeOperands_congr hle (fun h2 => hb1 (by omega)) (fun h3 => hb2 (by omega))]
  · rw [if_neg hp]
    simp [fetchInstr, fetchWindow_outside (Nat.le_of_not_lt hp), decode]

/-- Two ticks from Fetch leave a decoded instruction in `inflight` (R72, R73). -/
theorem runTicks_two_of_ok {n : Nat} {s : State} {i : Instr} (hr : s.Ready)
    (h : fetchInstr n s = .ok i) :
    runTicks n 2 s = ((s.capture (inflightOf i)).goTo .execute, []) := by
  obtain ⟨hst, hrun⟩ := hr
  rw [fetchInstr_eq] at h
  split at h
  · rename_i hp
    have hf := (tickReply_fetch (n := n) hrun hst).trans (fetchStage_inside hp)
    generalize hd : (s.capture (fetchedInflight (s.readByte s.pc.toNat))).goTo .decode = d at hf
    have hdop : d.inflight = fetchedInflight (s.readByte s.pc.toNat) := by rw [← hd]; rfl
    have hdpc : d.pc = s.pc := by rw [← hd]; rfl
    have hdb : ∀ a, d.readByte a = s.readByte a := by rw [← hd]; intro a; rfl
    have hdt : tickReply n d = decodeStage n d := tickReply_decode (by rw [← hd]; exact hrun) (by rw [← hd]; rfl)
    have hop : d.inflight.op = s.readByte s.pc.toNat := by rw [hdop]; rfl
    split at h
    · rename_i hc
      cases h
      rw [decodeStage_invalid (by rw [hop]; exact hc), hdop] at hdt
      simp only [runTicks, hf, hdt, Reply.quiet_state, Reply.quiet_notice]
      rw [← hd]
      rfl
    · rename_i hc
      split at h
      · rename_i ho
        cases h
        have hle : ¬ 8 ≤ (s.readByte s.pc.toNat).toNat := fun h8 => hc (classify_of_ge h8)
        have hcl : classify (s.readByte s.pc.toNat) = s.readByte s.pc.toNat :=
          classify_of_le (by omega)
        rw [decodeStage_valid (by rw [hop]; exact hc) (by rw [hop, hdpc]; exact ho), hop, hdop, hdpc,
          hdb, hdb, hcl, routeOperands_fetched (by omega)] at hdt
        simp only [runTicks, hf, hdt, Reply.quiet_state, Reply.quiet_notice, hcl]
        rw [← hd]
        rfl
      · cases h
  · cases h

/-- Where the instruction-level fetch fails, the tick that raises the fault is the first (R141) or
the second (R145), and it gives the same reply. -/
theorem runTicks_of_error {n : Nat} {s : State} {r : Reply} (hr : s.Ready)
    (h : fetchInstr n s = .error r) :
    (r = .raise .pcOutOfRange s.pc.toNat s ∧ tickReply n s = r) ∨
    ∃ d, d = (s.capture (fetchedInflight (s.readByte s.pc.toNat))).goTo .decode ∧
      tickReply n s = .quiet d ∧ r = .raise .operandFetchOutOfRange (firstOutside n s.pc) d ∧
      tickReply n d = r := by
  obtain ⟨hst, hrun⟩ := hr
  rw [fetchInstr_eq] at h
  split at h
  · rename_i hp
    right
    split at h
    · cases h
    · rename_i hc
      split at h
      · cases h
      · rename_i ho
        cases h
        refine ⟨_, rfl, (tickReply_fetch hrun hst).trans (fetchStage_inside hp), rfl, ?_⟩
        exact (tickReply_decode (by exact hrun) rfl).trans
          (decodeStage_fault (by exact hc) (by exact ho))
  · rename_i hp
    left
    cases h
    exact ⟨rfl, (tickReply_fetch hrun hst).trans (fetchStage_outside hp)⟩

end Sys2Proof.Machine
end

