-- ==== Sys2Proof/Laws/Instruction.lean ====
section
/-! SUPPORT. The instruction-level function: `exec` is `effect` at the hardware's size; what each instruction's effect writes; the last three ticks of an instruction. -/

namespace Sys2Proof.Machine

/-- `exec` answers the state of `effect` at the hardware's memory size. -/
theorem exec_eq_effect (i : Instr) (s : State) : exec i s = .next (effect Config.memSize i s).state := by
  cases i <;> rfl

/-! ### The effects at the hardware's size, where no address is out of bounds (R39) -/

theorem movRm_inside {n : Nat} {addr : Byte} (rs : RegIdx) (s : State) (h : addr.toNat < n) :
    movRmReply n addr rs s =
      .quiet ((((s.capture (inflightOf (.movRm addr rs))).storeByte addr.toNat (s.readReg rs)).advancePc 3).goTo .fetch) := by
  simp [movRmReply, inBounds, h]

theorem movRm_outside {n : Nat} {addr : Byte} (rs : RegIdx) (s : State) (h : ¬ addr.toNat < n) :
    movRmReply n addr rs s = dataFault addr (s.capture (inflightOf (.movRm addr rs))) := by
  simp [movRmReply, inBounds, h]

theorem movMr_inside {n : Nat} {addr : Byte} (rd : RegIdx) (s : State) (h : addr.toNat < n) :
    movMrReply n rd addr s =
      .quiet (((((s.capture (inflightOf (.movMr rd addr))).setScratch (zext16 (s.readByte addr.toNat))).commit rd).advancePc 3).goTo .fetch) := by
  simp [movMrReply, inBounds, h]

theorem movMr_outside {n : Nat} {addr : Byte} (rd : RegIdx) (s : State) (h : ¬ addr.toNat < n) :
    movMrReply n rd addr s = dataFault addr (s.capture (inflightOf (.movMr rd addr))) := by
  simp [movMrReply, inBounds, h]

theorem jmp_inside {n : Nat} {target : Byte} (s : State) (h : target.toNat < n) :
    jmpReply n target s =
      .quiet ((((s.capture (inflightOf (.jmp target))).setScratch (zext16 target)).setPc (zext16 target)).goTo .fetch) := by
  simp [jmpReply, inBounds, h]

theorem jmp_outside {n : Nat} {target : Byte} (s : State) (h : ¬ target.toNat < n) :
    jmpReply n target s = .raise .jumpTargetOutOfRange target.toNat
      (((s.capture (inflightOf (.jmp target))).setScratch (zext16 target)).goTo .writeback) := by
  simp [jmpReply, inBounds, h]

/-! ### Execute, Memory and Writeback on the record of a decoded instruction -/

/-- Execute, by instruction (R74): HALT and Invalid stop, the ALU instructions fill `scratch`. -/
theorem executeStage_inflightOf (i : Instr) (s : State) (h : s.inflight = inflightOf i) :
    executeStage s =
      match i with
      | .halt => .quiet (s.halt.goTo .memory)
      | .invalid => .raise .invalidOpcode (s.readByte s.pc.toNat).toNat (s.goTo .memory)
      | .movRr _ rs => .quiet ((s.setScratch (zext16 (s.readReg rs))).goTo .memory)
      | .addRr rd rs => .quiet ((s.setScratch (aluAdd (s.readReg rd) (s.readReg rs))).goTo .memory)
      | .subRr rd rs => .quiet ((s.setScratch (aluSub (s.readReg rd) (s.readReg rs))).goTo .memory)
      | .jmp target => .quiet ((s.setScratch (zext16 target)).goTo .memory)
      | .nop => .quiet (s.goTo .memory)
      | .movRm _ _ => .quiet (s.goTo .memory)
      | .movMr _ _ => .quiet (s.goTo .memory) := by
  cases i <;>
    simp [executeStage, h, inflightOf, isInvalidOp, alu, opHalt, opNop, opMovRr, opMovRm, opMovMr,
      opAddRr, opSubRr, opJmp, opInvalid]

/-- Memory, by instruction (R75): only the store and the load do anything. -/
theorem memoryStage_inflightOf (n : Nat) (i : Instr) (s : State) (h : s.inflight = inflightOf i) :
    memoryStage n s =
      match i with
      | .movRm addr rs =>
        if addr.toNat < n then .quiet ((s.storeByte addr.toNat (s.readReg rs)).goTo .writeback)
        else .raise .dataAddressOutOfRange addr.toNat s
      | .movMr _ addr =>
        if addr.toNat < n then .quiet ((s.setScratch (zext16 (s.readByte addr.toNat))).goTo .writeback)
        else .raise .dataAddressOutOfRange addr.toNat s
      | _ => .quiet (s.goTo .writeback) := by
  cases i <;>
    simp [memoryStage, h, inflightOf, inBounds, opHalt, opNop, opMovRr, opMovRm, opMovMr, opAddRr,
      opSubRr, opJmp, opInvalid]

/-- Writeback, by instruction (R76, R83). HALT and Invalid never reach it in a run (R26). -/
theorem writebackStage_inflightOf (n : Nat) (i : Instr) (s : State) (h : s.inflight = inflightOf i) :
    writebackStage n s =
      match i with
      | .jmp _ =>
        if s.scratch.toNat < n then .quiet ((s.setPc s.scratch).goTo .fetch)
        else .raise .jumpTargetOutOfRange s.scratch.toNat s
      | .movRr rd _ => .quiet (((s.commit rd).advancePc 3).goTo .fetch)
      | .addRr rd _ => .quiet (((s.commit rd).advancePc 3).goTo .fetch)
      | .subRr rd _ => .quiet (((s.commit rd).advancePc 3).goTo .fetch)
      | .movMr rd _ => .quiet (((s.commit rd).advancePc 3).goTo .fetch)
      | .movRm _ _ => .quiet ((s.advancePc 3).goTo .fetch)
      | _ => .quiet ((s.advancePc 1).goTo .fetch) := by
  cases i <;>
    simp [writebackStage, h, inflightOf, inBounds, writesRegister, opLength, opHalt, opNop, opMovRr,
      opMovRm, opMovMr, opAddRr, opSubRr, opJmp, opInvalid]

/-! ### Frames, said once for every instruction at every memory size -/

/-- The registers after an instruction: as before, or one of them written by MOV_RR, ADD_RR, SUB_RR
or MOV_MR (R76). -/
theorem effect_regs (n : Nat) (i : Instr) (s : State) :
    (effect n i s).state.regs = s.regs ∨
      ∃ rd v, (effect n i s).state.regs = s.regs.set rd.toNat v ∧
        ((∃ q, i = .movRr rd q) ∨ (∃ q, i = .addRr rd q) ∨ (∃ q, i = .subRr rd q) ∨
          ∃ a, i = .movMr rd a) := by
  cases i with
  | halt => exact .inl rfl
  | nop => exact .inl rfl
  | invalid => exact .inl rfl
  | movRr rd rs => exact .inr ⟨rd, _, rfl, .inl ⟨rs, rfl⟩⟩
  | addRr rd rs => exact .inr ⟨rd, _, rfl, .inr (.inl ⟨rs, rfl⟩)⟩
  | subRr rd rs => exact .inr ⟨rd, _, rfl, .inr (.inr (.inl ⟨rs, rfl⟩))⟩
  | movMr rd a =>
    by_cases h : a.toNat < n
    · simp only [effect, movMr_inside rd s h]
      exact .inr ⟨rd, _, rfl, .inr (.inr (.inr ⟨a, rfl⟩))⟩
    · simp only [effect, movMr_outside rd s h]
      exact .inl rfl
  | movRm a rs =>
    by_cases h : a.toNat < n
    · simp only [effect, movRm_inside rs s h]
      exact .inl rfl
    · simp only [effect, movRm_outside rs s h]
      exact .inl rfl
  | jmp t =>
    by_cases h : t.toNat < n
    · simp only [effect, jmp_inside s h]
      exact .inl rfl
    · simp only [effect, jmp_outside s h]
      exact .inl rfl

/-- The memory after an instruction: as before, or one byte of it stored by MOV_RM (R75). -/
theorem effect_mem (n : Nat) (i : Instr) (s : State) :
    (effect n i s).state.mem = s.mem ∨
      ∃ addr rs, i = .movRm addr rs ∧ addr.toNat < n ∧
        (effect n i s).state.mem = s.mem.write addr.toNat (s.readReg rs) := by
  cases i with
  | halt => exact .inl rfl
  | nop => exact .inl rfl
  | invalid => exact .inl rfl
  | movRr rd rs => exact .inl rfl
  | addRr rd rs => exact .inl rfl
  | subRr rd rs => exact .inl rfl
  | movMr rd a =>
    by_cases h : a.toNat < n
    · simp only [effect, movMr_inside rd s h]
      exact .inl rfl
    · simp only [effect, movMr_outside rd s h]
      exact .inl rfl
  | movRm a rs =>
    by_cases h : a.toNat < n
    · simp only [effect, movRm_inside rs s h]
      exact .inr ⟨a, rs, rfl, h, rfl⟩
    · simp only [effect, movRm_outside rs s h]
      exact .inl rfl
  | jmp t =>
    by_cases h : t.toNat < n
    · simp only [effect, jmp_inside s h]
      exact .inl rfl
    · simp only [effect, jmp_outside s h]
      exact .inl rfl

/-! ### What the register instructions leave in the registers -/

theorem readReg_movRrReply (s : State) (rd rs r : RegIdx) :
    (movRrReply rd rs s).state.readReg r = if rd = r then s.readReg rs else s.readReg r := by
  simp [movRrReply, aluFinish, State.readReg_commit]

theorem readReg_addRrReply (s : State) (rd rs r : RegIdx) :
    (addRrReply rd rs s).state.readReg r =
      if rd = r then lowByte (aluAdd (s.readReg rd) (s.readReg rs)) else s.readReg r := by
  simp [addRrReply, aluFinish, State.readReg_commit]

theorem readReg_subRrReply (s : State) (rd rs r : RegIdx) :
    (subRrReply rd rs s).state.readReg r =
      if rd = r then lowByte (aluSub (s.readReg rd) (s.readReg rs)) else s.readReg r := by
  simp [subRrReply, aluFinish, State.readReg_commit]

/-- Which fault a decoded instruction raises (R140): INVALID always its own, MOV_RM, MOV_MR and JMP
when the address they name is outside memory, the others none. -/
theorem effect_fault (n : Nat) (i : Instr) (s : State) :
    (effect n i s).notice.map Notice.fault =
      match i with
      | .invalid => some .invalidOpcode
      | .movRm a _ => if n ≤ a.toNat then some .dataAddressOutOfRange else none
      | .movMr _ a => if n ≤ a.toNat then some .dataAddressOutOfRange else none
      | .jmp t => if n ≤ t.toNat then some .jumpTargetOutOfRange else none
      | _ => none := by
  cases i with
  | movRm a rs =>
    by_cases h : a.toNat < n
    · simp [effect, movRm_inside rs s h, Nat.not_le.2 h]
    · simp [effect, movRm_outside rs s h, dataFault, Nat.le_of_not_lt h]
  | movMr rd a =>
    by_cases h : a.toNat < n
    · simp [effect, movMr_inside rd s h, Nat.not_le.2 h]
    · simp [effect, movMr_outside rd s h, dataFault, Nat.le_of_not_lt h]
  | jmp t =>
    by_cases h : t.toNat < n
    · simp [effect, jmp_inside s h, Nat.not_le.2 h]
    · simp [effect, jmp_outside s h, Nat.le_of_not_lt h]
  | _ => rfl

end Sys2Proof.Machine
end

