-- ==== Sys2Proof/Laws/Loader.lean ====
section
/-! SUPPORT. What loading bytes and registers, and placing an instruction's bytes, leave alone and what they leave readable. -/

namespace Sys2Proof.Machine

/-- Loading bytes keeps the canonical form and touches memory only (R173). -/
theorem State.loadBytes_frame (image : List (Byte × Byte)) (s : State) (h : s.mem.wf = true) :
    (s.loadBytes image).mem.wf = true ∧ (s.loadBytes image).halted = s.halted ∧
      (s.loadBytes image).stage = s.stage ∧ (s.loadBytes image).inflight = s.inflight ∧
      (s.loadBytes image).scratch = s.scratch ∧ (s.loadBytes image).regs = s.regs := by
  induction image generalizing s with
  | nil => exact ⟨h, rfl, rfl, rfl, rfl, rfl⟩
  | cons e rest ih => exact ih (s.storeByte e.1.toNat e.2) (Memory.write_wfAt e.2 h e.1.isLt)

/-- Loading registers touches registers only (R173). -/
theorem State.loadRegs_frame (values : List (RegIdx × Byte)) (s : State) :
    (s.loadRegs values).mem = s.mem ∧ (s.loadRegs values).halted = s.halted ∧
      (s.loadRegs values).stage = s.stage ∧ (s.loadRegs values).inflight = s.inflight ∧
      (s.loadRegs values).scratch = s.scratch := by
  induction values generalizing s with
  | nil => exact ⟨rfl, rfl, rfl, rfl, rfl⟩
  | cons e rest ih => exact ih (s.writeReg e.1 e.2)

/-- Bytes stored at ascending addresses inside memory read back in order; the canonical form is
kept, and addresses below are not touched. -/
theorem State.storeBytes_read (bytes : List Byte) (a : Nat) (s : State) (h : s.mem.wf = true)
    (hl : a + bytes.length ≤ 256) :
    (s.storeBytes a bytes).mem.wf = true ∧
      (∀ j, (hj : j < bytes.length) → (s.storeBytes a bytes).readByte (a + j) = bytes[j]) ∧
      ∀ x, x < a → (s.storeBytes a bytes).readByte x = s.readByte x := by
  induction bytes generalizing a s with
  | nil => exact ⟨h, fun j hj => absurd hj (by simp), fun _ _ => rfl⟩
  | cons b rest ih =>
    simp only [List.length_cons] at hl
    have ha : a < Config.memSize := by
      show a < 256
      omega
    obtain ⟨i0, i1, i2⟩ := ih (a + 1) (s.storeByte a b) (Memory.write_wfAt b h ha) (by omega)
    refine ⟨i0, fun j hj => ?_, fun x hx => ?_⟩
    · cases j with
      | zero => exact (i2 a (by omega)).trans (State.readByte_storeByte_same h a b)
      | succ j =>
        rw [show a + (j + 1) = a + 1 + j by omega]
        exact i1 j (by simpa using hj)
    · exact (i2 x (by omega)).trans (State.readByte_storeByte_other h b (by omega))

end Sys2Proof.Machine
end

