-- ==== Sys2Proof/Laws/PerInstr.lean ====
section
/-! SUPPORT. Statements made per instruction (LAWS.json): the encoding has the length of R50, and the in-flight record a decoded instruction leaves has the opcode number and the shape R53 gives it. -/

namespace Sys2Proof.Laws

/-- The encoding has as many bytes as the instruction's length (R50, R56). -/
def EncodeLength.Statement (i : Instr) : Prop := (encode i).length = i.length

namespace EncodeLength
theorem halt : Statement .halt := rfl
theorem nop : Statement .nop := rfl
theorem movRr (rd rs : RegIdx) : Statement (.movRr rd rs) := rfl
theorem movRm (addr : Byte) (rs : RegIdx) : Statement (.movRm addr rs) := rfl
theorem movMr (rd : RegIdx) (addr : Byte) : Statement (.movMr rd addr) := rfl
theorem addRr (rd rs : RegIdx) : Statement (.addRr rd rs) := rfl
theorem subRr (rd rs : RegIdx) : Statement (.subRr rd rs) := rfl
theorem jmp (target : Byte) : Statement (.jmp target) := rfl
theorem invalid : Statement .invalid := rfl
end EncodeLength

/-- The record of a decoded instruction holds its opcode number, and the shape of that number
(R53, R54). -/
def CaptureShape.Statement (i : Instr) : Prop :=
  (Machine.inflightOf i).op = i.opcode ∧ (Machine.inflightOf i).shape = Machine.shapeOf i.opcode

namespace CaptureShape
theorem halt : Statement .halt := ⟨rfl, rfl⟩
theorem nop : Statement .nop := ⟨rfl, rfl⟩
theorem movRr (rd rs : RegIdx) : Statement (.movRr rd rs) := ⟨rfl, rfl⟩
theorem movRm (addr : Byte) (rs : RegIdx) : Statement (.movRm addr rs) := ⟨rfl, rfl⟩
theorem movMr (rd : RegIdx) (addr : Byte) : Statement (.movMr rd addr) := ⟨rfl, rfl⟩
theorem addRr (rd rs : RegIdx) : Statement (.addRr rd rs) := ⟨rfl, rfl⟩
theorem subRr (rd rs : RegIdx) : Statement (.subRr rd rs) := ⟨rfl, rfl⟩
theorem jmp (target : Byte) : Statement (.jmp target) := ⟨rfl, rfl⟩
theorem invalid : Statement .invalid := ⟨rfl, rfl⟩
end CaptureShape

end Sys2Proof.Laws
end

