-- ==== Sys2Proof/Tests/Slice0.lean ====
section
/-! SUPPORT. The model's own tests: the well-formedness smoke, decoding of words written out from `30_encoding.md`, one-step tests with the results of `95_test_vectors.md`, and the witnesses of the obligations' hypotheses. -/

namespace Sys2Proof.Tests

open Sys2Proof.Machine

/-- A launch state with bytes from an address on, and register values. -/
def start (a : Nat) (bytes : List Byte) (values : List (RegIdx × Byte)) : State :=
  launch (imageFrom a bytes) values

/-- The same, with the program counter at those bytes. -/
def startAt (a : Nat) (bytes : List Byte) (values : List (RegIdx × Byte)) : State :=
  (start a bytes values).setPc (BitVec.ofNat 16 a)

/-- The next state of a step, if there is one. -/
def next? : Host.Outcome State Fault Refusal → Option State
  | .next t => some t
  | .fault _ => none
  | .refused _ => none

/-! ### Well-formedness: each check refuses an ill-formed term -/

theorem test_wf_refuses_store_address : Instr.wf 128 (.movRm 128 0) = false := by decide
theorem test_wf_refuses_load_address : Instr.wf 128 (.movMr 0 200) = false := by decide
theorem test_wf_refuses_jump_target : Instr.wf 128 (.jmp 128) = false := by decide
theorem test_wf_refuses_invalid : Instr.wf 256 .invalid = false := by decide
theorem test_wf_takes_the_last_byte :
    Instr.wf 128 (.movRm 127 0) = true ∧ Instr.wf 128 (.movMr 0 127) = true ∧
      Instr.wf 128 (.jmp 127) = true ∧ Instr.wf 256 (.jmp 255) = true := by decide
theorem test_line_refuses_initialisers :
    Line.wf (.init 8 0) = false ∧ Line.wf (.init 0 256) = false := by decide
theorem test_line_refuses_operand_counts :
    Line.wf (.instr .HALT [0]) = false ∧ Line.wf (.instr .NOP [1]) = false ∧
      Line.wf (.instr .MOV_RR [1]) = false ∧ Line.wf (.instr .MOV_RM [1, 2, 3]) = false ∧
      Line.wf (.instr .MOV_MR []) = false ∧ Line.wf (.instr .ADD_RR [1]) = false ∧
      Line.wf (.instr .SUB_RR [1, 2, 3]) = false ∧ Line.wf (.instr .JMP []) = false := by decide
theorem test_line_refuses_registers :
    Line.wf (.instr .MOV_RR [8, 0]) = false ∧ Line.wf (.instr .MOV_RR [0, 8]) = false ∧
      Line.wf (.instr .MOV_RM [0, 8]) = false ∧ Line.wf (.instr .MOV_MR [8, 0]) = false ∧
      Line.wf (.instr .ADD_RR [8, 0]) = false ∧ Line.wf (.instr .ADD_RR [0, 8]) = false ∧
      Line.wf (.instr .SUB_RR [8, 0]) = false ∧ Line.wf (.instr .SUB_RR [0, 8]) = false := by decide
theorem test_line_refuses_bytes :
    Line.wf (.instr .MOV_RM [256, 0]) = false ∧ Line.wf (.instr .MOV_MR [0, 256]) = false ∧
      Line.wf (.instr .JMP [256]) = false := by decide

/-! ### Decoding: V1 to V12, each byte written out in bits from the formats of R51 -/

theorem test_decode_halt : decode [0b00000000] = .ok .halt := by decide
theorem test_decode_nop : decode [0b00000001] = .ok .nop := by decide
theorem test_decode_movRr : decode [0b00000010, 0b00000011, 0b00000100] = .ok (.movRr 3 4) := by decide
theorem test_decode_movRm : decode [0b00000011, 0b01000000, 0b00000010] = .ok (.movRm 0x40 2) := by decide
theorem test_decode_movMr : decode [0b00000100, 0b00000111, 0b11111111] = .ok (.movMr 7 0xFF) := by decide
theorem test_decode_addRr : decode [0b00000101, 0b00000111, 0b00000111] = .ok (.addRr 7 7) := by decide
theorem test_decode_subRr : decode [0b00000110, 0b00000000, 0b00000001] = .ok (.subRr 0 1) := by decide
theorem test_decode_jmp : decode [0b00000111, 0b11111111] = .ok (.jmp 0xFF) := by decide
/-- V9: every byte of the list. -/
theorem test_decode_invalid :
    ∀ b ∈ ([0x08, 0x09, 0x0A, 0x7F, 0x80, 0x82, 0xFF] : List Byte), decode [b] = .ok .invalid := by decide
/-- V10, V41, V42, V54, V55: a register-index byte above 7 is not masked. -/
theorem test_decode_bad_index :
    ∀ w ∈ ([[2, 8, 0], [5, 0, 0x10], [4, 8, 0], [3, 0, 8], [6, 0x80, 0]] : List (List Byte)),
      decode w = .ok .invalid := by decide
/-- V11, V12: the address byte of a memory form may be any byte. -/
theorem test_decode_address_of_8 :
    decode [3, 8, 0] = .ok (.movRm 8 0) ∧ decode [4, 0, 8] = .ok (.movMr 0 8) := by decide
theorem test_decode_rejects_by_name :
    decode [] = .error .noOpcodeByte ∧ decode [7] = .error .operandByteMissing ∧
      decode [2, 9] = .error .operandByteMissing := by decide
/-- Words numbered as the opcode table's match column numbers them. -/
theorem test_decode_table_words :
    decodeTableWord 8 0x00 = some .halt ∧ decodeTableWord 8 0x01 = some .nop ∧
      decodeTableWord 24 0x020304 = some (.movRr 3 4) ∧
      decodeTableWord 24 0x034002 = some (.movRm 0x40 2) ∧
      decodeTableWord 24 0x0407FF = some (.movMr 7 0xFF) ∧
      decodeTableWord 24 0x050707 = some (.addRr 7 7) ∧
      decodeTableWord 24 0x060001 = some (.subRr 0 1) ∧ decodeTableWord 16 0x07FF = some (.jmp 0xFF) ∧
      decodeTableWord 8 0x08 = some .invalid ∧ decodeTableWord 24 0x020800 = some .invalid := by decide

/-! ### One instruction at a time: the vectors of `95_test_vectors.md` -/

/-- V13: HALT at 0. -/
theorem test_halt :
    runTicks 256 3 (start 0 [0] []) =
      ({ State.reset with halted := true, stage := .memory }, []) := by decide
/-- V16: NOP. -/
theorem test_nop :
    (next? (step (start 0 [1] []))).map (fun t => (t.pc, t.halted, t.stage, t.inflight.op)) =
      some (1, false, .fetch, 1) := by decide
/-- V22: MOV_RR 3 4. -/
theorem test_movRr :
    (next? (step (start 0 [2, 3, 4] [(3, 1), (4, 99)]))).map
      (fun t => (t.pc, t.readReg 3, t.readReg 4, t.scratch)) = some (3, 99, 99, 0x0063) := by decide
/-- S2, V25: 250 + 10 is 4. -/
theorem test_addRr_wraps :
    (next? (step (start 0 [5, 0, 1] [(0, 250), (1, 10)]))).map
      (fun t => (t.pc, t.readReg 0, t.readReg 1, t.scratch)) = some (3, 4, 10, 0x0104) := by decide
/-- V31: both reads see the old value. -/
theorem test_addRr_same_register :
    (next? (step (start 0 [5, 3, 3] [(3, 200)]))).map
      (fun t => (t.readReg 3, t.scratch)) = some (144, 0x0190) := by decide
/-- S3, V32: 5 - 10 is 251. -/
theorem test_subRr_wraps :
    (next? (step (start 0 [6, 0, 1] [(0, 5), (1, 10)]))).map
      (fun t => (t.pc, t.readReg 0, t.readReg 1, t.scratch)) = some (3, 251, 10, 0xFFFB) := by decide
/-- V34: the most negative difference. -/
theorem test_subRr_least :
    (next? (step (start 0 [6, 0, 1] [(0, 0), (1, 255)]))).map
      (fun t => (t.readReg 0, t.scratch)) = some (1, 0xFF01) := by decide
/-- V46: the last cell. -/
theorem test_movRm_last_cell :
    (next? (step (start 0 [3, 0xFF, 7] [(7, 205)]))).map
      (fun t => (t.pc, t.readByte 255, t.scratch)) = some (3, 205, 0) := by decide
/-- V43: a store over its own opcode byte; `pc` still moves by 3. -/
theorem test_movRm_over_itself :
    (next? (step (start 0 [3, 0, 1] [(1, 1)]))).map
      (fun t => (t.pc, t.halted, t.readByte 0)) = some (3, false, 1) := by decide
/-- V48: a load of its own opcode byte. -/
theorem test_movMr_own_byte :
    (next? (step (start 0 [4, 0, 0] [(0, 9)]))).map
      (fun t => (t.pc, t.readReg 0, t.scratch)) = some (3, 4, 4) := by decide
/-- V49: a cell nothing wrote reads 0. -/
theorem test_movMr_unwritten :
    (next? (step (start 0 [4, 5, 0x80] [(5, 33)]))).map (fun t => t.readReg 5) = some 0 := by decide
/-- S9, V57: `pc` is 5, not 2 and not 7. -/
theorem test_jmp :
    (next? (step (start 0 [7, 5] []))).map (fun t => (t.pc, t.halted, t.scratch)) =
      some (5, false, 5) := by decide
/-- S7, V18: Invalid. -/
theorem test_invalid :
    runTicks 256 3 (start 0 [8] [(0, 3)]) =
      ({ start 0 [8] [(0, 3)] with
          halted := true, stage := .memory, inflight := ⟨8, .none, 0, 0, 0⟩ }, [⟨.invalidOpcode, 8⟩]) := by
  decide
/-- V42: the raw opcode byte is reported. -/
theorem test_invalid_index :
    (runTicks 256 3 (start 0 [5, 0, 0x10] [(0, 1)])).2 = [⟨.invalidOpcode, 5⟩] := by decide
/-- V50 at 128 bytes: the store out of range. -/
theorem test_movRm_outside :
    (fun r : State × List Notice => (r.1.pc, r.1.halted, r.1.stage, r.1.readByte 200, r.2))
      (runTicks 128 4 (start 0 [3, 200, 1] [(1, 9)])) =
      (0, true, .memory, 0, [⟨.dataAddressOutOfRange, 200⟩]) := by decide
/-- V51 at 128 bytes: the load out of range. -/
theorem test_movMr_outside :
    (fun r : State × List Notice => (r.1.pc, r.1.halted, r.1.readReg 2, r.1.scratch, r.2))
      (runTicks 128 4 (start 0 [4, 2, 128] [(2, 77)])) =
      (0, true, 77, 0, [⟨.dataAddressOutOfRange, 128⟩]) := by decide
/-- V52 at 128 bytes: `pc` keeps its pre-jump value. -/
theorem test_jmp_outside :
    (fun r : State × List Notice => (r.1.pc, r.1.halted, r.1.stage, r.1.scratch, r.2))
      (runTicks 128 5 (start 0 [7, 128] [])) =
      (0, true, .writeback, 0x80, [⟨.jumpTargetOutOfRange, 128⟩]) := by decide
/-- V53 at 128 bytes: the bad index is found before the bad address. -/
theorem test_index_before_address :
    (runTicks 128 3 (start 0 [3, 200, 9] [])).2 = [⟨.invalidOpcode, 3⟩] := by decide
/-- V67: JMP's operand byte would be at 256. -/
theorem test_operand_outside :
    runTicks 256 2 (startAt 255 [7] []) =
      ({ startAt 255 [7] [] with
          halted := true, stage := .decode, inflight := ⟨7, .none, 0, 0, 0⟩ },
        [⟨.operandFetchOutOfRange, 256⟩]) := by decide
/-- V70: the missing operand is found before the bad index. -/
theorem test_operand_before_index :
    (runTicks 256 2 (startAt 254 [2, 9] [])).2 = [⟨.operandFetchOutOfRange, 256⟩] := by decide
/-- V71: past the end of memory. -/
theorem test_pc_outside :
    runTicks 256 1 (State.reset.setPc 256) =
      ({ State.reset.setPc 256 with halted := true }, [⟨.pcOutOfRange, 256⟩]) := by decide
/-- A placed table word is where the step fetches, also when `pc` is near the end of memory. -/
theorem test_withFetchWord :
    (next? (step (State.reset.withFetchWord 16 0x0705))).map (·.pc) = some 5 ∧
      (next? (step ((State.reset.setPc 255).withFetchWord 24 0x050000))).map (·.pc) = some 3 := by
  decide
/-- P1's text, loaded. -/
theorem test_load_P1 :
    (loadProgram [.init 1 5, .instr .MOV_RR [0, 1], .instr .HALT []]).map
      (fun s => (s.mem, s.readReg 1, s.readReg 0)) =
      some ([(0, 2), (2, 1)], 5, 0) := by decide
theorem test_reset_memory_wf : State.reset.mem.wf = true := by decide

/-! ### Witnesses: for each obligation with hypotheses, data that meets all of them -/

theorem witness_DecodedBytesBeginWithTheEncoding :
    decode [2, 3, 4, 9] = .ok (.movRr 3 4) ∧ Instr.movRr 3 4 ≠ .invalid := by decide

theorem witness_ClassifyComparesTheWholeByte : decode (2 :: [3, 4]) = .ok (.movRr 3 4) := by decide

/-- Each clause at a boundary: byte 7 and byte 8; the last operand byte at the last address and past
it, one and two bytes past `pc`; index bytes 7 and 8. -/
theorem witness_FetchAndDecodeFollowTheDecisionProcedure :
    (fetchInstr 256 (startAt 255 [8] [])).toOption = some .invalid ∧
      (fetchInstr 256 (startAt 254 [7, 255] [])).toOption = some (.jmp 255) ∧
      (fetchInstr 256 (startAt 255 [7] [])).toOption = none ∧
      (fetchInstr 256 (startAt 253 [6, 7, 7] [])).toOption = some (.subRr 7 7) ∧
      (fetchInstr 256 (startAt 254 [6, 7] [])).toOption = none ∧
      (fetchInstr 256 (startAt 255 [6] [])).toOption = none ∧
      (fetchInstr 256 (startAt 255 [0] [])).toOption = some .halt ∧
      (fetchInstr 256 (startAt 255 [1] [])).toOption = some .nop ∧
      (fetchInstr 256 (start 0 [2, 8, 0] [])).toOption = some .invalid ∧
      (fetchInstr 256 (start 0 [3, 8, 7] [])).toOption = some (.movRm 8 7) ∧
      (fetchInstr 256 (start 0 [4, 7, 8] [])).toOption = some (.movMr 7 8) ∧
      (fetchInstr 256 (start 0 [5, 7, 8] [])).toOption = some .invalid ∧
      (startAt 255 [8] []).pc.toNat < 256 := by decide

theorem witness_StepRunsTheDecodedInstruction :
    (start 0 [7, 5] []).Ready ∧ (start 0 [7, 5] []).HoldsAt Config.memSize 0 [7, 5] ∧
      decode [7, 5] = .ok (.jmp 5) := by
  unfold State.Ready State.HoldsAt
  decide

theorem witness_StepHaltsWhereNoWholeInstructionLies :
    (State.reset.setPc 256).Ready ∧ 256 ≤ (State.reset.setPc 256).pc.toNat ∧
      (startAt 255 [7] []).Ready ∧ (startAt 255 [7] []).readByte 255 = 7 ∧
      (startAt 254 [2, 9] []).Ready ∧ (startAt 254 [2, 9] []).readByte 254 = 2 ∧
      (startAt 255 [6] []).Ready ∧ (startAt 255 [6] []).readByte 255 = 6 := by
  unfold State.Ready
  decide

theorem witness_FiveTicksEqualOneInstruction : State.reset.Ready := by
  unfold State.Ready
  decide

theorem witness_HaltedMachineIgnoresTicks :
    State.reset.halt.halted = true ∧ State.reset.halted = false := by decide

/-- A state at Execute with the opcode number, to meet the clauses on Execute. -/
def atExecute (op : Byte) : State :=
  (State.reset.capture (fetchedInflight op)).goTo .execute

theorem witness_StageAndHaltedAfterEachTick :
    State.reset.halt.halted = true ∧
      (tickReply 256 (atExecute 0)).state.halted = true ∧
      (tickReply 256 (atExecute 8)).state.halted = true ∧
      (tickReply 256 (atExecute 7)).state.halted = false ∧
      (tickReply 256 State.reset).notice = none ∧ State.reset.stage ≠ .execute ∧
      (tickReply 256 (State.reset.setPc 256)).notice = some ⟨.pcOutOfRange, 256⟩ := by decide

theorem witness_InstructionsTakeTheirTicks :
    (start 0 [1] []).Ready ∧ (instruction 256 (start 0 [1] [])).state.halted = false ∧
      (instruction 256 (start 0 [0] [])).state.halted = true ∧
      (instruction 256 (startAt 255 [7] [])).state.halted = true ∧
      (instruction 128 (start 0 [3, 128, 0] [])).state.halted = true ∧
      (instruction 128 (start 0 [7, 128] [])).state.halted = true := by
  unfold State.Ready
  decide

theorem witness_KInstructionsAndAHaltTakeFiveKPlusThreeTicks :
    completesTo 1 (start 0 [1] []) (ticks 5 (start 0 [1] [])) ∧
      (ticks 5 (start 0 [1] [])).pc.toNat < Config.memSize ∧
      (ticks 5 (start 0 [1] [])).readByte 1 = 0 := by
  refine ⟨⟨?_, ticks 5 (start 0 [1] []), rfl, ?_, rfl, ?_⟩, ?_⟩ <;>
    first | decide | (unfold State.Ready; decide)

theorem witness_EveryTickKeepsTheInvariants :
    Config.ValidMemSize 1 ∧ Config.ValidMemSize 256 ∧ State.reset.Inv 1 ∧
      (State.reset.setPc 256).Inv 256 := by
  refine ⟨by unfold Config.ValidMemSize; decide, by unfold Config.ValidMemSize; decide, ?_, ?_⟩ <;>
    constructor <;> decide

theorem witness_EveryStepKeepsTheInvariants :
    State.reset.Inv Config.memSize ∧ step State.reset = .next (ticks 5 State.reset) := by
  refine ⟨?_, rfl⟩
  constructor <;> decide

theorem witness_LaunchStatesMeetTheInvariants : (start 0 [8] [(7, 9)]).Launch := by
  constructor <;> decide

/-- A run that notifies a fault (V18). -/
theorem witness_NoRunRaisesTheDataOrJumpFault :
    (start 0 [8] []).Launch ∧
      (⟨.invalidOpcode, 8⟩ : Notice) ∈ (runTicks Config.memSize 3 (start 0 [8] [])).2 := by
  refine ⟨?_, by decide⟩
  constructor <;> decide

/-- A run that reaches 256 and is under way at 255 (V65). -/
theorem witness_PcStaysWithinMemoryOrOnePast :
    (launch [(0, 7), (1, 255), (255, 1)] []).Launch ∧
      (ticks 10 (launch [(0, 7), (1, 255), (255, 1)] [])).pc = 256 ∧
      (ticks 9 (launch [(0, 7), (1, 255), (255, 1)] [])).pc = 255 ∧
      (ticks 9 (launch [(0, 7), (1, 255), (255, 1)] [])).stage ≠ .fetch := by
  refine ⟨?_, by decide, by decide, by decide⟩
  constructor <;> decide

theorem witness_EveryTickKeepsTheJumpTargetAByte :
    (ticks 3 (start 0 [7, 255] [])).JumpTargetIsByte ∧
      (ticks 3 (start 0 [7, 255] [])).inflight.op = opJmp ∧
      (tickReply Config.memSize (State.reset.setPc 256)).notice = some ⟨.pcOutOfRange, 256⟩ := by
  unfold State.JumpTargetIsByte
  decide

/-- Each of the five, at a boundary value of its condition. -/
theorem witness_EachFaultIsRaisedExactlyWhen :
    (tickReply 256 (State.reset.setPc 256)).notice = some ⟨.pcOutOfRange, 256⟩ ∧
      (tickReply 256 (State.reset.setPc 255)).notice = none ∧
      (tickReply 256 (tick (startAt 254 [2] []))).notice = some ⟨.operandFetchOutOfRange, 256⟩ ∧
      (tickReply 256 (tick (startAt 253 [2] []))).notice = none ∧
      (tickReply 256 (atExecute 8)).notice = some ⟨.invalidOpcode, 0⟩ ∧
      (tickReply 256 (atExecute 7)).notice = none ∧
      (tickReply 128 (ticks 3 (start 0 [4, 0, 128] []))).notice = some ⟨.dataAddressOutOfRange, 128⟩ ∧
      (tickReply 128 (ticks 3 (start 0 [4, 0, 127] []))).notice = none ∧
      (tickReply 128 (ticks 4 (start 0 [7, 128] []))).notice = some ⟨.jumpTargetOutOfRange, 128⟩ ∧
      (tickReply 128 (ticks 4 (start 0 [7, 127] []))).notice = none := by decide

theorem witness_FaultEntryOnlySetsHalted :
    (tickReply 256 (atExecute 8)).notice = some ⟨.invalidOpcode, 0⟩ := by decide

theorem witness_FaultsArePrecise :
    (start 0 [3, 128, 1] []).Ready ∧
      (instruction 128 (start 0 [3, 128, 1] [])).notice.isSome = true := by
  unfold State.Ready
  decide

theorem witness_TheCauseOfAStopCanBeInferred :
    (start 0 [3, 128, 1] []).Ready ∧
      (instruction 128 (start 0 [3, 128, 1] [])).state.halted = true ∧
      (instruction 128 (start 0 [3, 128, 1] [])).stopCause = .fault .dataAddressOutOfRange ∧
      (instruction 128 (start 0 [0] [])).stopCause = .haltInstruction := by
  unfold State.Ready
  decide

theorem witness_MovRmStoresOneByte : State.reset.mem.wf = true := by decide

theorem witness_OnlyTheNamedPlacesChange :
    (movRmReply 256 5 1 (start 0 [] [(1, 7)])).state.mem ≠ (start 0 [] [(1, 7)]).mem ∧
      (movRrReply 2 1 (start 0 [] [(1, 7)])).state.readReg 2 ≠ (start 0 [] [(1, 7)]).readReg 2 ∧
      (haltReply State.reset).state.halted ≠ State.reset.halted := by decide

theorem witness_EachElementIsWrittenInItsStage :
    State.reset.stage ≠ .memory ∧ State.reset.stage ≠ .writeback ∧
      (atExecute 1).stage ≠ .fetch ∧ (atExecute 1).stage ≠ .decode ∧
      State.reset.stage ≠ .execute := by decide

/-- Both arms of each law: no wrap at 255, wrap at 256; no borrow at equal operands, borrow. -/
theorem witness_ArithmeticWrapsModulo256 :
    (0 : RegIdx) ≠ 1 ∧
      exec (.addRr 0 1) (start 0 [] [(0, 250), (1, 5)]) =
        .next (addRrReply 0 1 (start 0 [] [(0, 250), (1, 5)])).state ∧
      (addRrReply 0 1 (start 0 [] [(0, 250), (1, 5)])).state.readReg 0 = 255 ∧
      (addRrReply 0 1 (start 0 [] [(0, 250), (1, 6)])).state.readReg 0 = 0 ∧
      exec (.subRr 0 1) (start 0 [] [(0, 6), (1, 6)]) =
        .next (subRrReply 0 1 (start 0 [] [(0, 6), (1, 6)])).state ∧
      (subRrReply 0 1 (start 0 [] [(0, 6), (1, 6)])).state.readReg 0 = 0 ∧
      (subRrReply 0 1 (start 0 [] [(0, 6), (1, 7)])).state.readReg 0 = 255 := by
  refine ⟨by decide, rfl, by decide, by decide, rfl, by decide, by decide⟩

/-- HALT in the last byte. -/
theorem witness_HaltTicks :
    (startAt 255 [0] []).Ready ∧ (startAt 255 [0] []).HoldsAt 256 255 [0] := by
  unfold State.Ready State.HoldsAt
  decide

/-- NOP in the last byte. -/
theorem witness_NopTicks :
    (startAt 255 [1] []).Ready ∧ (startAt 255 [1] []).HoldsAt 256 255 [1] := by
  unfold State.Ready State.HoldsAt
  decide

/-- Each of the three in the last three bytes, and each pair of number and result is in the list. -/
theorem witness_RegisterInstructionTicks :
    ∀ op ∈ ([2, 5, 6] : List Byte), (startAt 253 [op, 7, 0] [(7, 1), (0, 2)]).Ready ∧
      (startAt 253 [op, 7, 0] [(7, 1), (0, 2)]).HoldsAt 256 253 [op, 7, 0] ∧
      (op, if op = 2 then (2 : Wide) else if op = 5 then 3 else 0xFFFF) ∈
        [(2, ((startAt 253 [op, 7, 0] [(7, 1), (0, 2)]).readReg 0).setWidth 16),
          (5, ((startAt 253 [op, 7, 0] [(7, 1), (0, 2)]).readReg 7).setWidth 16 +
            ((startAt 253 [op, 7, 0] [(7, 1), (0, 2)]).readReg 0).setWidth 16),
          (6, ((startAt 253 [op, 7, 0] [(7, 1), (0, 2)]).readReg 7).setWidth 16 -
            ((startAt 253 [op, 7, 0] [(7, 1), (0, 2)]).readReg 0).setWidth 16)] := by
  unfold State.Ready State.HoldsAt
  decide

/-- The last byte at 256; the first address outside at 128, and the last inside. -/
theorem witness_StoreTicks :
    (startAt 253 [3, 255, 7] []).Ready ∧ (startAt 253 [3, 255, 7] []).HoldsAt 256 253 [3, 255, 7] ∧ (255 : Byte).toNat < 256 ∧
      (startAt 0 [3, 128, 7] []).Ready ∧ (startAt 0 [3, 128, 7] []).HoldsAt 128 0 [3, 128, 7] ∧ 128 ≤ (128 : Byte).toNat ∧
      (startAt 0 [3, 127, 7] []).Ready ∧ (startAt 0 [3, 127, 7] []).HoldsAt 128 0 [3, 127, 7] ∧ (127 : Byte).toNat < 128 := by
  unfold State.Ready State.HoldsAt
  decide

/-- The last byte at 256; the first address outside at 128, and the last inside. -/
theorem witness_LoadTicks :
    (startAt 253 [4, 7, 255] []).Ready ∧ (startAt 253 [4, 7, 255] []).HoldsAt 256 253 [4, 7, 255] ∧ (255 : Byte).toNat < 256 ∧
      (startAt 0 [4, 7, 128] []).Ready ∧ (startAt 0 [4, 7, 128] []).HoldsAt 128 0 [4, 7, 128] ∧ 128 ≤ (128 : Byte).toNat ∧
      (startAt 0 [4, 7, 127] []).Ready ∧ (startAt 0 [4, 7, 127] []).HoldsAt 128 0 [4, 7, 127] ∧ (127 : Byte).toNat < 128 := by
  unfold State.Ready State.HoldsAt
  decide

/-- The last target at 256; the first outside at 128, and the last inside. -/
theorem witness_JumpTicks :
    (startAt 254 [7, 255] []).Ready ∧ (startAt 254 [7, 255] []).HoldsAt 256 254 [7, 255] ∧ (255 : Byte).toNat < 256 ∧
      (startAt 0 [7, 128] []).Ready ∧ (startAt 0 [7, 128] []).HoldsAt 128 0 [7, 128] ∧ 128 ≤ (128 : Byte).toNat ∧
      (startAt 0 [7, 127] []).Ready ∧ (startAt 0 [7, 127] []).HoldsAt 128 0 [7, 127] ∧ (127 : Byte).toNat < 128 := by
  unfold State.Ready State.HoldsAt
  decide

/-- An unrecognised byte at the last address; a bad index in each place that has one. -/
theorem witness_InvalidTicks :
    (startAt 255 [8] []).Ready ∧ (startAt 255 [8] []).HoldsAt 256 255 [8] ∧
      (startAt 253 [2, 8, 7] []).HoldsAt 256 253 [2, 8, 7] ∧
      (startAt 253 [6, 7, 8] []).HoldsAt 256 253 [6, 7, 8] ∧
      (startAt 253 [3, 7, 8] []).HoldsAt 256 253 [3, 7, 8] ∧
      (startAt 253 [4, 8, 7] []).HoldsAt 256 253 [4, 8, 7] := by
  unfold State.Ready State.HoldsAt
  decide

/-- Register 1 holds the opcode byte that lands on the next instruction: 0, 1 and 8. -/
theorem witness_AStoreChangesTheInstructionFetchedNext :
    ∀ v ∈ ([0, 1, 8] : List Byte), (start 0 [3, 3, 1] [(1, v)]).Ready ∧
      (start 0 [3, 3, 1] [(1, v)]).mem.wf = true ∧ (start 0 [3, 3, 1] [(1, v)]).readReg 1 = v ∧
      (start 0 [3, 3, 1] [(1, v)]).HoldsAt Config.memSize 0 [3, 3, 1] := by
  unfold State.Ready State.HoldsAt
  decide

theorem witness_HiddenStateNeverShows :
    State.reset.stage = .fetch ∧
      ((State.reset.setScratch 300).capture (inflightOf (.jmp 9))).stage = .fetch ∧
      State.reset.observe = ((State.reset.setScratch 300).capture (inflightOf (.jmp 9))).observe ∧
      State.reset ≠ (State.reset.setScratch 300).capture (inflightOf (.jmp 9)) := by decide

/-- Two values for one address and for one register: the last one counts. -/
theorem witness_LoadSetsWhatItNames :
    State.reset.mem.wf = true ∧
      (State.reset.load [(255, 1), (255, 2)] [(7, 3), (7, 0)]).readByte 255 = 2 ∧
      (State.reset.load [(255, 1), (255, 2)] [(7, 3), (7, 0)]).readReg 7 = 0 := by decide

theorem witness_LoadedProgramsHoldTheirInstructionsInOrder :
    (loadProgram ([.init 1 5, .instr .unrecognized [9], .instr .MOV_RR [0, 1]] ++
        Line.instr .JMP [0] :: [.ignored])).isSome = true ∧
      lineInstr (.instr .JMP [0]) = some (.jmp 0) := by decide

theorem witness_APlacedInstructionRunsNext :
    State.reset.mem.wf = true ∧ decodeTableWord 24 0x034002 = some (.movRm 0x40 2) := by decide

/-- Once round the cycle and two on. -/
theorem witness_StageCyclesInItsOrder :
    (start 0 [1, 1] []).Ready ∧ (runTicks 256 7 (start 0 [1, 1] [])).1.halted = false := by
  unfold State.Ready
  decide

/-- Each comparison at the last address inside and the first outside. -/
theorem witness_TheComparisonWithMemSizeIsExact :
    State.reset.Ready ∧ (State.reset.setPc 256).Ready ∧
      (effect 128 (.movRm 127 0) State.reset).state.halted = false ∧
      (effect 128 (.movRm 128 0) State.reset).state.halted = true ∧
      (effect 128 (.movMr 0 127) State.reset).state.halted = false ∧
      (effect 128 (.movMr 0 128) State.reset).state.halted = true ∧
      (effect 128 (.jmp 127) State.reset).state.halted = false ∧
      (effect 128 (.jmp 128) State.reset).state.halted = true ∧
      (tickReply 256 (State.reset.setPc 255)).state.halted = false ∧
      (tickReply 256 (State.reset.setPc 256)).state.halted = true ∧
      (tick (startAt 254 [2] [])).stage = .decode ∧ (tick (startAt 254 [2] [])).halted = false ∧
      (tick (startAt 254 [2] [])).inflight.op = 2 ∧
      (tickReply 256 (tick (startAt 254 [2] []))).state.halted = true ∧
      (tickReply 256 (tick (startAt 253 [6] []))).state.halted = false ∧
      (tickReply 256 (tick (startAt 255 [7] []))).state.halted = true ∧
      (tickReply 256 (tick (startAt 254 [7] []))).state.halted = false := by
  unfold State.Ready
  decide

/-- Two initialisers of register 7, none of register 0, and bytes 0 to 2 of the program. -/
theorem witness_LoadedProgramsSetRegistersAndLeaveTheRestZero :
    (loadProgram [.init 7 1, .instr .ADD_RR [1, 7], .init 7 255]).map
      (fun s => (s.readReg 7, s.readReg 0, s.readByte 2, s.readByte 3)) = some (255, 0, 7, 0) := by
  decide

end Sys2Proof.Tests
end

/-! The stage register over a run (R17): a tick that leaves the machine running moves `stage` to its
successor, so a run moves it as many times, and the successor returns to Fetch after five. -/

namespace Sys2Proof.Machine

/-! ### One tick, stage by stage: every case that does not halt goes to the successor -/

theorem fetchStage_stage_of_running {n : Nat} {s : State}
    (h : (fetchStage n s).state.halted = false) : (fetchStage n s).state.stage = .decode := by
  obtain ⟨-, hr⟩ | ⟨-, hr⟩ := fetchStage_cases n s
  · simp [hr]
  · simp [hr] at h

theorem decodeStage_stage_of_running {n : Nat} {s : State}
    (h : (decodeStage n s).state.halted = false) : (decodeStage n s).state.stage = .execute := by
  obtain ⟨-, hr⟩ | ⟨-, -, hr⟩ | ⟨-, -, -, hr⟩ := decodeStage_cases n s
  · simp [hr]
  · simp [hr]
  · simp [hr] at h

/-- Execute goes to Memory even when it halts (R74). -/
theorem executeStage_stage (s : State) : (executeStage s).state.stage = .memory := by
  obtain ⟨-, hr⟩ | ⟨-, hr⟩ | ⟨-, -, ⟨_, -, hr⟩ | ⟨-, hr⟩⟩ := executeStage_cases s <;> simp [hr]

theorem memoryStage_stage_of_running {n : Nat} {s : State}
    (h : (memoryStage n s).state.halted = false) : (memoryStage n s).state.stage = .writeback := by
  obtain ⟨-, -, hr⟩ | ⟨-, -, hr⟩ | ⟨-, -, hr⟩ | ⟨-, -, hr⟩ := memoryStage_cases n s
  · simp [hr]
  · simp [hr]
  · simp [hr] at h
  · simp [hr]

theorem writebackStage_stage_of_running {n : Nat} {s : State}
    (h : (writebackStage n s).state.halted = false) : (writebackStage n s).state.stage = .fetch := by
  obtain ⟨-, -, hr⟩ | ⟨-, -, hr⟩ | ⟨-, -, hr⟩ | ⟨-, -, hr⟩ := writebackStage_cases n s
  · simp [hr]
  · simp [hr] at h
  · simp [hr]
  · simp [hr]

/-- A tick that leaves the machine running moves `stage` to its successor (R17, R77). -/
theorem tickReply_stage_of_running {n : Nat} {s : State} :
    (tickReply n s).state.halted = false → (tickReply n s).state.stage = s.stage.successor := by
  refine tickReply_cases (P := fun r => r.state.halted = false → r.state.stage = s.stage.successor)
    ?still ?fetch ?decode ?execute ?memory ?writeback
  case still => exact fun hh h => absurd (hh.symm.trans h) (by decide)
  case fetch => exact fun _ hs h => hs ▸ fetchStage_stage_of_running h
  case decode => exact fun _ hs h => hs ▸ decodeStage_stage_of_running h
  case execute => exact fun _ hs _ => hs ▸ executeStage_stage s
  case memory => exact fun _ hs h => hs ▸ memoryStage_stage_of_running h
  case writeback => exact fun _ hs h => hs ▸ writebackStage_stage_of_running h

/-- A machine that runs after a tick ran before it: nothing clears `halted` (R71). -/
theorem running_of_tickReply_running {n : Nat} {s : State}
    (h : (tickReply n s).state.halted = false) : s.halted = false := by
  cases hh : s.halted with
  | false => rfl
  | true => rw [tickReply_halted hh, Reply.quiet_state, hh] at h; exact h

/-! ### A run -/

/-- The last tick of a run. -/
theorem runTicks_succ_state (n k : Nat) (s : State) :
    (runTicks n (k + 1) s).1 = (tickReply n (runTicks n k s).1).state := by
  rw [runTicks_add n k 1 s, runTicks_succ, runTicks_zero]

/-- A run of `k` ticks that leaves the machine running has moved `stage` to its successor `k` times,
whatever stage it began at. -/
theorem runTicks_stage_of_running {n k : Nat} {s : State} (h : (runTicks n k s).1.halted = false) :
    (runTicks n k s).1.stage = Stage.successor^[k] s.stage := by
  induction k with
  | zero => rfl
  | succ k ih =>
    rw [runTicks_succ_state] at h ⊢
    rw [tickReply_stage_of_running h, ih (running_of_tickReply_running h),
      Function.iterate_succ_apply']

/-! ### The cycle of stages -/

/-- Five successors lead back to the same stage. -/
theorem Stage.successor_isPeriodicPt (st : Stage) : Function.IsPeriodicPt Stage.successor 5 st := by
  cases st <;> rfl

/-- The stage `k` successors after Fetch is the one numbered `k` modulo 5 (R17). -/
theorem Stage.successor_iterate_fetch (k : Nat) :
    Stage.successor^[k] .fetch =
      [Stage.fetch, .decode, .execute, .memory, .writeback].getD (k % 5) .fetch := by
  rw [← (Stage.successor_isPeriodicPt .fetch).iterate_mod_apply k]
  have hcycle : ∀ j < 5, Stage.successor^[j] .fetch =
      [Stage.fetch, .decode, .execute, .memory, .writeback].getD j .fetch := by decide
  exact hcycle _ (Nat.mod_lt k (by decide))

/-- Settles O52: each running tick moves `stage` to its successor, and from Fetch the successors run
through the five stages in order. -/
theorem stageCyclesInItsOrder : Obligations.StageCyclesInItsOrder := by
  refine ⟨fun st => by cases st <;> decide, rfl, fun n k s hready hrun => ?_⟩
  obtain ⟨hfetch, -⟩ := hready
  rw [runTicks_stage_of_running hrun, hfetch]
  exact Stage.successor_iterate_fetch k

end Sys2Proof.Machine

/-! The comparisons with `MEM_SIZE` (R31, R38): for each place the machine compares an address with
the memory size, the exact condition under which it is still running afterwards. -/

namespace Sys2Proof.Machine

/-! ### The two ticks that compare an address derived from `pc` -/

theorem fetchStage_running_iff {n : Nat} {s : State} (hrun : s.halted = false) :
    (fetchStage n s).state.halted = false ↔ s.pc.toNat < n := by
  obtain ⟨hin, hr⟩ | ⟨hout, hr⟩ := fetchStage_cases n s
  · simp [hr, hrun, hin]
  · simp [hr, hout]

/-- Decode stops the machine only for an opcode with operands whose last operand byte is outside
memory (R73, R145). -/
theorem decodeStage_running_iff {n : Nat} {s : State} (hrun : s.halted = false) :
    (decodeStage n s).state.halted = false ↔
      8 ≤ s.inflight.op.toNat ∨ opLength s.inflight.op < 2 ∨
        s.pc.toNat + opLength s.inflight.op - 1 < n := by
  obtain ⟨hop, hr⟩ | ⟨-, hin, hr⟩ | ⟨hop, hlen, hout, hr⟩ := decodeStage_cases n s
  · simp [hr, hrun, hop]
  · exact iff_of_true (by simp [hr, hrun]) (.inr hin)
  · simp only [hr, Reply.raise_state, State.halt_halted, Bool.true_eq_false, false_iff]
    omega

/-! ### The three instructions that compare an address operand -/

theorem movRmReply_running_iff {n : Nat} {s : State} (addr : Byte) (rs : RegIdx)
    (hrun : s.halted = false) :
    (movRmReply n addr rs s).state.halted = false ↔ addr.toNat < n := by
  by_cases h : addr.toNat < n
  · simp [movRm_inside rs s h, hrun, h]
  · simp [movRm_outside rs s h, dataFault, h]

theorem movMrReply_running_iff {n : Nat} {s : State} (rd : RegIdx) (addr : Byte)
    (hrun : s.halted = false) :
    (movMrReply n rd addr s).state.halted = false ↔ addr.toNat < n := by
  by_cases h : addr.toNat < n
  · simp [movMr_inside rd s h, hrun, h]
  · simp [movMr_outside rd s h, dataFault, h]

theorem jmpReply_running_iff {n : Nat} {s : State} (target : Byte) (hrun : s.halted = false) :
    (jmpReply n target s).state.halted = false ↔ target.toNat < n := by
  by_cases h : target.toNat < n
  · simp [jmp_inside s h, hrun, h]
  · simp [jmp_outside s h, h]

/-! ### Address operands and lengths -/

/-- Every address of the hardware's memory is named by an operand byte (R31). -/
theorem exists_effectiveAddress_eq {a : Nat} (h : a < 256) :
    ∃ addr : Byte, effectiveAddress addr = a :=
  ⟨BitVec.ofNatLT a h, by rw [effectiveAddress_eq, BitVec.toNat_ofNatLT]⟩

/-- The opcodes with operands: JMP has two bytes, the others three (R50). -/
theorem opLength_of_operands {op : Byte} (hlo : 2 ≤ op.toNat) (hhi : op.toNat ≤ 7) :
    opLength op = if op = opJmp then 2 else 3 := by
  rcases opcode_cases hhi with rfl | rfl | rfl | rfl | rfl | rfl | rfl | rfl
  · exact absurd hlo (by decide)
  · exact absurd hlo (by decide)
  all_goals rfl

/-- Settles O53: an address operand names exactly the 256 cells, and each of the five comparisons
with `MEM_SIZE` stops the machine exactly when the compared value is not below it. -/
theorem theComparisonWithMemSizeIsExact : Obligations.TheComparisonWithMemSizeIsExact := by
  refine ⟨rfl, fun addr => ?_, fun _ => exists_effectiveAddress_eq, ?_, ?_⟩
  · rw [effectiveAddress_eq]
    exact addr.isLt
  · intro n s addr r hready
    obtain ⟨hfetch, hrun⟩ := hready
    refine ⟨movRmReply_running_iff addr r hrun, movMrReply_running_iff r addr hrun,
      jmpReply_running_iff addr hrun, ?_⟩
    rw [tickReply_fetch hrun hfetch]
    exact fetchStage_running_iff hrun
  · intro n s hdecode hrun hlo hhi
    rw [tickReply_decode hrun hdecode, decodeStage_running_iff hrun, opLength_of_operands hlo hhi]
    change _ ↔ s.pc.toNat + (if s.inflight.op = opJmp then 2 else 3) - 1 < n
    split <;> omega

end Sys2Proof.Machine

/-! The opcode byte of a decoded instruction (R57): every bit of it counts. The length of an
encoding (R50). -/

namespace Sys2Proof

/-- `classify` by numbers: 0 to 7 are themselves, every other byte is 8 (R57). -/
theorem classify_toNat (b : Byte) : (classify b).toNat = if b.toNat ≤ 7 then b.toNat else 8 := by
  by_cases h : b.toNat ≤ 7
  · rw [classify_of_le h, if_pos h]
  · rw [classify_of_ge (by omega), if_neg h]
    rfl

/-- Each branch of the decoder's operand part gives an instruction of the branch's own opcode
number, or Invalid (R58). -/
theorem decodeOperands_opcode (op b1 b2 : Byte) :
    decodeOperands op b1 b2 = .invalid ∨ (decodeOperands op b1 b2).opcode = op := by
  unfold decodeOperands
  split_ifs with h h h h h h h h
  · exact .inr h.symm
  · exact .inr h.symm
  · cases regIndex b1 <;> cases regIndex b2 <;> simp [Instr.opcode, h]
  · cases regIndex b2 <;> simp [Instr.opcode, h]
  · cases regIndex b1 <;> simp [Instr.opcode, h]
  · cases regIndex b1 <;> cases regIndex b2 <;> simp [Instr.opcode, h]
  · cases regIndex b1 <;> cases regIndex b2 <;> simp [Instr.opcode, h]
  · exact .inr h.symm
  · exact .inl rfl

/-- The opcode byte of a decoded operation is its opcode number, with no bit ignored (R57). -/
theorem opcode_of_decode {b : Byte} {operands : List Byte} {i : Instr}
    (h : decode (b :: operands) = .ok i) (hi : i ≠ .invalid) : b = i.opcode := by
  simp only [decode] at h
  split_ifs at h with hinv hlen
  · exact absurd (Except.ok.inj h).symm hi
  · have hle : b.toNat ≤ 7 := by
      by_contra hb
      exact hinv (classify_of_ge (by omega))
    rw [classify_of_le hle] at h
    obtain rfl := Except.ok.inj h
    exact ((decodeOperands_opcode _ _ _).resolve_left hi).symm

/-- The table of R50 gives the length of every encoding. -/
theorem encode_length (i : Instr) : (encode i).length = i.length := by cases i <;> rfl

/-- Settles O3: `classify` is the identity up to 7 and 8 above it, and the opcode byte of a decoded
operation is its number. -/
theorem classifyComparesTheWholeByte : Obligations.ClassifyComparesTheWholeByte :=
  ⟨classify_toNat, rfl, rfl, rfl, fun _ _ _ _ h => opcode_of_decode h (nomatch ·)⟩

end Sys2Proof

/-! Loading a program (R62 to R66): the loader's image stands in memory from address 0, and an
instruction's bytes stand in the image after those of the instructions before it. -/

namespace Sys2Proof.Machine

/-! ### The bytes of a program -/

theorem lineBytes_of_some {l : Line} {i : Instr} (h : lineInstr l = some i) :
    lineBytes l = encode i := by
  rw [lineBytes, h]

theorem lineBytes_of_none {l : Line} (h : lineInstr l = none) : lineBytes l = [] := by
  rw [lineBytes, h]

theorem programBytes_cons (l : Line) (p : List Line) :
    programBytes (l :: p) = lineBytes l ++ programBytes p :=
  List.flatMap_cons

theorem programBytes_append (p q : List Line) :
    programBytes (p ++ q) = programBytes p ++ programBytes q :=
  List.flatMap_append

/-- A program is as long as its instruction lines together: other lines emit no bytes (R66). -/
theorem programBytes_length (p : List Line) :
    (programBytes p).length = ((p.filterMap lineInstr).map Instr.length).sum := by
  induction p with
  | nil => rfl
  | cons l p ih =>
    rw [programBytes_cons, List.length_append, ih]
    cases h : lineInstr l with
    | none => rw [lineBytes_of_none h, List.filterMap_cons_none h, List.length_nil, Nat.zero_add]
    | some i =>
      rw [lineBytes_of_some h, List.filterMap_cons_some h, List.map_cons, List.sum_cons,
        encode_length]

/-! ### Bytes in memory -/

/-- A part of the bytes that stand at an address stands as much further on as the bytes before it
are long. -/
theorem State.HoldsAt.part {s : State} {n a : Nat} {bytes xs ys zs : List Byte}
    (h : s.HoldsAt n a bytes) (hparts : bytes = xs ++ ys ++ zs) :
    s.HoldsAt n (a + xs.length) ys := by
  obtain ⟨hinside, hread⟩ := h
  subst hparts
  simp only [List.length_append] at hinside hread
  refine ⟨by omega, fun j hj => ?_⟩
  rw [Nat.add_assoc, hread (xs.length + j) (by omega)]
  simp [hj]

/-- Loading the image of bytes inside memory stores them at ascending addresses: no address
wraps. -/
theorem State.loadBytes_imageFrom (s : State) {a : Nat} {bytes : List Byte}
    (h : a + bytes.length ≤ 256) : s.loadBytes (imageFrom a bytes) = s.storeBytes a bytes := by
  induction bytes generalizing a s with
  | nil => rfl
  | cons b rest ih =>
    rw [List.length_cons] at h
    have ha : (BitVec.ofNat 8 a).toNat = a := by rw [BitVec.toNat_ofNat]; omega
    rw [imageFrom, State.loadBytes, State.storeBytes, ha, ih _ (by omega)]

/-! ### The launch state -/

/-- Reset followed by any load is a launch state (R174). -/
theorem launch_isLaunch (image : List (Byte × Byte)) (values : List (RegIdx × Byte)) :
    (launch image values).Launch := by
  obtain ⟨bmem, bhalted, bstage, binflight, bscratch, -⟩ :=
    State.loadBytes_frame image State.reset (Memory.wfAt_nil _)
  obtain ⟨rmem, rhalted, rstage, rinflight, rscratch⟩ :=
    State.loadRegs_frame values (State.reset.loadBytes image)
  exact ⟨rmem ▸ bmem, rfl, rhalted.trans bhalted, rstage.trans bstage, rinflight.trans binflight,
    rscratch.trans bscratch⟩

/-- Registers and `pc` aside, a launch state reads as the loaded bytes left it. -/
theorem launch_readByte (image : List (Byte × Byte)) (values : List (RegIdx × Byte)) (x : Nat) :
    (launch image values).readByte x = (State.reset.loadBytes image).readByte x := by
  obtain ⟨hmem, -⟩ := State.loadRegs_frame values (State.reset.loadBytes image)
  exact congrArg (Memory.read · x) hmem

/-- The bytes of an image from address 0 stand in the launch state. -/
theorem launch_holdsAt {bytes : List Byte} (values : List (RegIdx × Byte))
    (h : bytes.length ≤ Config.memSize) :
    (launch (imageFrom 0 bytes) values).HoldsAt Config.memSize 0 bytes := by
  have hlen : 0 + bytes.length ≤ 256 := by rwa [Nat.zero_add]
  obtain ⟨-, hread, -⟩ := State.storeBytes_read bytes 0 State.reset (Memory.wfAt_nil _) hlen
  refine ⟨hlen, fun j hj => ?_⟩
  rw [launch_readByte, State.loadBytes_imageFrom _ hlen]
  exact hread j hj

/-- What the loader accepts fits memory, and it gives the launch state of its image. -/
theorem loadProgram_eq_some {p : List Line} {s : State} (h : loadProgram p = some s) :
    (programBytes p).length ≤ Config.memSize ∧
      s = launch (imageFrom 0 (programBytes p)) (programRegs p) := by
  unfold loadProgram at h
  split_ifs at h with hok
  rw [Bool.and_eq_true, decide_eq_true_eq] at hok
  exact ⟨hok.2, (Option.some.inj h).symm⟩

/-- Settles O50: the image stands from address 0, and within it each line's bytes follow those of
the lines before it. -/
theorem loadedProgramsHoldTheirInstructionsInOrder :
    Obligations.LoadedProgramsHoldTheirInstructionsInOrder := by
  refine ⟨fun p before after line i s hload hp hline => ?_, fun _ _ => rfl, rfl, fun _ => rfl⟩
  obtain ⟨hfits, rfl⟩ := loadProgram_eq_some hload
  refine ⟨launch_isLaunch _ _, rfl, ?_⟩
  have hbytes : programBytes p = programBytes before ++ encode i ++ programBytes after := by
    rw [hp, programBytes_append, programBytes_cons, lineBytes_of_some hline, List.append_assoc]
  rw [← programBytes_length, ← Nat.zero_add (programBytes before).length]
  exact (launch_holdsAt (programRegs p) hfits).part hbytes

end Sys2Proof.Machine

/-! The decoder against the encoder (R51, R54, R58, R59): the operand part of the decoder for each
opcode with operands, and from it the two directions of the round trip. -/

namespace Sys2Proof

open Machine

/-! ### The operand part of the decoder, one equation per opcode with operands -/

/-- The register-index check as a test of the byte (R58). -/
theorem regIndex_eq (b : Byte) :
    regIndex b = if b.toNat > 7 then none else some (b.setWidth 3) := by
  split
  case isTrue h => exact regIndex_of_gt h
  case isFalse h => exact regIndex_of_le (Nat.le_of_not_lt h)

theorem decodeOperands_movRr (b1 b2 : Byte) :
    decodeOperands opMovRr b1 b2 =
      if b1.toNat > 7 ∨ b2.toNat > 7 then .invalid else .movRr (b1.setWidth 3) (b2.setWidth 3) := by
  by_cases h1 : b1.toNat > 7 <;> by_cases h2 : b2.toNat > 7 <;>
    simp [decodeOperands, regIndex_eq, h1, h2, opHalt, opNop, opMovRr]

theorem decodeOperands_movRm (b1 b2 : Byte) :
    decodeOperands opMovRm b1 b2 =
      if b2.toNat > 7 then .invalid else .movRm b1 (b2.setWidth 3) := by
  by_cases h2 : b2.toNat > 7 <;>
    simp [decodeOperands, regIndex_eq, h2, opHalt, opNop, opMovRr, opMovRm]

theorem decodeOperands_movMr (b1 b2 : Byte) :
    decodeOperands opMovMr b1 b2 =
      if b1.toNat > 7 then .invalid else .movMr (b1.setWidth 3) b2 := by
  by_cases h1 : b1.toNat > 7 <;>
    simp [decodeOperands, regIndex_eq, h1, opHalt, opNop, opMovRr, opMovRm, opMovMr]

theorem decodeOperands_addRr (b1 b2 : Byte) :
    decodeOperands opAddRr b1 b2 =
      if b1.toNat > 7 ∨ b2.toNat > 7 then .invalid else .addRr (b1.setWidth 3) (b2.setWidth 3) := by
  by_cases h1 : b1.toNat > 7 <;> by_cases h2 : b2.toNat > 7 <;>
    simp [decodeOperands, regIndex_eq, h1, h2, opHalt, opNop, opMovRr, opMovRm, opMovMr, opAddRr]

theorem decodeOperands_subRr (b1 b2 : Byte) :
    decodeOperands opSubRr b1 b2 =
      if b1.toNat > 7 ∨ b2.toNat > 7 then .invalid else .subRr (b1.setWidth 3) (b2.setWidth 3) := by
  by_cases h1 : b1.toNat > 7 <;> by_cases h2 : b2.toNat > 7 <;>
    simp [decodeOperands, regIndex_eq, h1, h2, opHalt, opNop, opMovRr, opMovRm, opMovMr, opAddRr,
      opSubRr]

/-! ### Decode of encode -/

theorem regByte_not_gt (r : RegIdx) : ¬ (regByte r).toNat > 7 := by
  rw [regByte_toNat]
  exact Nat.not_lt.2 (Nat.le_of_lt_succ r.isLt)

@[simp] theorem setWidth_regByte (r : RegIdx) : (regByte r).setWidth 3 = r := by
  simp [regByte]

/-- An encoding by itself decodes to its instruction. -/
theorem decode_encode (i : Instr) : decode (encode i) = .ok i := by
  cases i with
  | halt => rfl
  | nop => rfl
  | jmp target => rfl
  | invalid => rfl
  | movRr rd rs =>
    exact congrArg Except.ok ((decodeOperands_movRr _ _).trans (by simp [regByte_not_gt]))
  | movRm addr rs =>
    exact congrArg Except.ok ((decodeOperands_movRm _ _).trans (by simp [regByte_not_gt]))
  | movMr rd addr =>
    exact congrArg Except.ok ((decodeOperands_movMr _ _).trans (by simp [regByte_not_gt]))
  | addRr rd rs =>
    exact congrArg Except.ok ((decodeOperands_addRr _ _).trans (by simp [regByte_not_gt]))
  | subRr rd rs =>
    exact congrArg Except.ok ((decodeOperands_subRr _ _).trans (by simp [regByte_not_gt]))

/-- Settles O1: an encoding decodes to its instruction, and bytes after it do not matter. -/
theorem decodeOfEncodeIsTheInstruction : Obligations.DecodeOfEncodeIsTheInstruction :=
  fun i rest => decode_append rest (decode_encode i)

/-! ### Encode of decode -/

/-- What a successful decode of an operation went through: enough bytes, and the operand part. -/
theorem decodeOperands_of_decode {b : Byte} {operands : List Byte} {i : Instr}
    (h : decode (b :: operands) = .ok i) (hi : i ≠ .invalid) :
    opLength b ≤ operands.length + 1 ∧
      decodeOperands b (operands.getD 0 0) (operands.getD 1 0) = i := by
  simp only [decode] at h
  split_ifs at h with hinv hlen
  · exact absurd (Except.ok.inj h).symm hi
  · have hle : b.toNat ≤ 7 := Nat.le_of_not_lt fun h8 => hinv (classify_of_ge h8)
    rw [classify_of_le hle] at h hlen
    exact ⟨Nat.le_of_not_lt hlen, Except.ok.inj h⟩

/-- A byte that passes the register-index check is the byte of its index: no bit of it is
dropped. -/
theorem regByte_setWidth {b : Byte} (h : b.toNat ≤ 7) : regByte (b.setWidth 3) = b :=
  (regByte_of_regIndex (regIndex_of_le h)).symm

/-- A conditional instruction that is not Invalid passed its condition. -/
theorem valid_of_eq_ite {i j : Instr} {bad : Prop} [Decidable bad]
    (hj : j = if bad then .invalid else i) (h : j ≠ .invalid) : ¬ bad ∧ j = i := by
  split at hj
  case isTrue => exact absurd hj h
  case isFalse hb => exact ⟨hb, hj⟩

/-- The eight operations have the opcode numbers 0 to 7 (R52). -/
theorem Instr.opcode_le {i : Instr} (hi : i ≠ .invalid) : i.opcode.toNat ≤ 7 := by
  cases i with
  | invalid => exact absurd rfl hi
  | _ =>
    simp [Instr.opcode, opHalt, opNop, opMovRr, opMovRm, opMovMr, opAddRr, opSubRr, opJmp]

/-- The operands of an operation are the bytes they were read from. -/
theorem encode_decodeOperands {op b1 b2 : Byte} (h : decodeOperands op b1 b2 ≠ .invalid) :
    encode (decodeOperands op b1 b2) = [op, b1, b2].take (opLength op) := by
  have hop : op.toNat ≤ 7 :=
    (decodeOperands_opcode op b1 b2).resolve_left h ▸ Instr.opcode_le h
  rcases opcode_cases hop with rfl | rfl | rfl | rfl | rfl | rfl | rfl | rfl
  · rfl
  · rfl
  · obtain ⟨hb, he⟩ := valid_of_eq_ite (decodeOperands_movRr b1 b2) h
    simp_all [encode, regByte_setWidth]
  · obtain ⟨hb, he⟩ := valid_of_eq_ite (decodeOperands_movRm b1 b2) h
    simp_all [encode, regByte_setWidth]
  · obtain ⟨hb, he⟩ := valid_of_eq_ite (decodeOperands_movMr b1 b2) h
    simp_all [encode, regByte_setWidth]
  · obtain ⟨hb, he⟩ := valid_of_eq_ite (decodeOperands_addRr b1 b2) h
    simp_all [encode, regByte_setWidth]
  · obtain ⟨hb, he⟩ := valid_of_eq_ite (decodeOperands_subRr b1 b2) h
    simp_all [encode, regByte_setWidth]
  · rfl

/-- At most three bytes of a list that has them, by its reads with default 0. -/
theorem take_eq_take_getD {b : Byte} {operands : List Byte} {m : Nat} (hm : m ≤ 3)
    (h : m ≤ operands.length + 1) :
    (b :: operands).take m = [b, operands.getD 0 0, operands.getD 1 0].take m := by
  match operands with
  | [] => exact (List.take_append_of_le_length (l₁ := [b]) (l₂ := [0, 0]) h).symm
  | [b1] => exact (List.take_append_of_le_length (l₁ := [b, b1]) (l₂ := [0]) h).symm
  | b1 :: b2 :: rest => exact List.take_append_of_le_length (l₁ := [b, b1, b2]) (l₂ := rest) hm

/-- Settles O2: the bytes an operation was decoded from are its encoding. -/
theorem decodedBytesBeginWithTheEncoding : Obligations.DecodedBytesBeginWithTheEncoding := by
  intro bytes i h hi
  cases bytes with
  | nil => cases h
  | cons b operands =>
    obtain ⟨hlen, hops⟩ := decodeOperands_of_decode h hi
    have henc : encode i = (b :: operands).take i.length := by
      rw [Instr.length, ← opcode_of_decode h hi, take_eq_take_getD (opLength_le b).2 hlen, ← hops]
      exact encode_decodeOperands (hops ▸ hi)
    rw [henc, List.take_append_drop]

/-- Settles O5: the ten words decode as the formats of R51 say. -/
theorem sampleWordsDecode : Obligations.SampleWordsDecode := by
  unfold Obligations.SampleWordsDecode
  decide

end Sys2Proof

/-! Fetch and decode on memory (R61, R80): the four things the instruction-level fetch can give,
each under its own condition, and from them the decision procedure. -/

namespace Sys2Proof.Machine

/-! ### What the instruction-level fetch gives -/

/-- Past the end of memory there is no opcode byte (R141). -/
theorem fetchInstr_outside {n : Nat} {s : State} (hp : n ≤ s.pc.toNat) :
    fetchInstr n s = .error (.raise .pcOutOfRange s.pc.toNat s) := by
  rw [fetchInstr_eq, if_neg (Nat.not_lt.2 hp)]

/-- An unrecognised opcode byte is Invalid wherever it lies (R57, R47). -/
theorem fetchInstr_unrecognized {n : Nat} {s : State} (hp : s.pc.toNat < n)
    (h8 : 8 ≤ (s.readByte s.pc.toNat).toNat) : fetchInstr n s = .ok .invalid := by
  rw [fetchInstr_eq, if_pos hp, if_pos (classify_of_ge h8)]

/-- An opcode whose last operand byte is outside memory (R145). -/
theorem fetchInstr_operandOutside {n : Nat} {s : State} (hp : s.pc.toNat < n)
    (h7 : (s.readByte s.pc.toNat).toNat ≤ 7)
    (ho : n ≤ s.pc.toNat + opLength (s.readByte s.pc.toNat) - 1) :
    fetchInstr n s = .error (.raise .operandFetchOutOfRange (firstOutside n s.pc)
      ((s.capture (fetchedInflight (s.readByte s.pc.toNat))).goTo .decode)) := by
  have hc : classify (s.readByte s.pc.toNat) ≠ opInvalid := by
    rw [Ne, classify_eq_invalid_iff]
    omega
  rw [fetchInstr_eq, if_pos hp, if_neg hc, classify_of_le h7, if_neg]
  rw [operandsInBounds_iff]
  omega

/-- A recognised opcode with all its operand bytes inside memory (R54, R61). -/
theorem fetchInstr_inside {n : Nat} {s : State} (h7 : (s.readByte s.pc.toNat).toNat ≤ 7)
    (ho : s.pc.toNat + opLength (s.readByte s.pc.toNat) - 1 < n) :
    fetchInstr n s = .ok (decodeOperands (s.readByte s.pc.toNat) (s.readByte (s.pc.toNat + 1))
      (s.readByte (s.pc.toNat + 2))) := by
  have hc : classify (s.readByte s.pc.toNat) ≠ opInvalid := by
    rw [Ne, classify_eq_invalid_iff]
    omega
  have hlen := opLength_le (s.readByte s.pc.toNat)
  rw [fetchInstr_eq, if_pos (by omega), if_neg hc, classify_of_le h7,
    if_pos ((operandsInBounds_iff _ _ _).2 (.inr ho))]

/-- The lengths of R50 by the opcode byte's number. -/
theorem opLength_eq (b : Byte) :
    opLength b = if b.toNat = 7 then 2 else if 2 ≤ b.toNat ∧ b.toNat ≤ 6 then 3 else 1 := by
  by_cases h7 : b.toNat ≤ 7
  · rcases opcode_cases h7 with rfl | rfl | rfl | rfl | rfl | rfl | rfl | rfl <;> rfl
  · have hne : ∀ c : Byte, c.toNat ≤ 7 → b ≠ c := fun c hc hb => h7 (hb ▸ hc)
    have hlen : opLength b = 1 := by
      simp [opLength, hne opMovRr (by decide), hne opMovRm (by decide), hne opMovMr (by decide),
        hne opAddRr (by decide), hne opSubRr (by decide), hne opJmp (by decide)]
    rw [hlen, if_neg (by omega), if_neg (by omega)]

/-- Settles O4: the four cases of the instruction-level fetch, and in the last the eight opcodes. -/
theorem fetchAndDecodeFollowTheDecisionProcedure :
    Obligations.FetchAndDecodeFollowTheDecisionProcedure := by
  intro n s hp p b0 b1 b2 len
  have hlen : opLength b0 = len := opLength_eq b0
  by_cases h8 : 8 ≤ b0.toNat
  · rw [if_pos h8]
    exact fetchInstr_unrecognized hp h8
  have h7 : b0.toNat ≤ 7 := by omega
  rw [if_neg h8]
  by_cases ho : n ≤ p + len - 1
  · rw [if_pos ho, fetchInstr_operandOutside hp h7 (hlen ▸ ho), firstOutside_eq]
    rfl
  · rw [if_neg ho, fetchInstr_inside h7 (hlen ▸ Nat.lt_of_not_le ho)]
    change Except.ok (decodeOperands b0 b1 b2) = _
    rcases opcode_cases h7 with e | e | e | e | e | e | e | e <;> rw [e]
    · rfl
    · rfl
    · exact congrArg Except.ok (decodeOperands_movRr b1 b2)
    · exact congrArg Except.ok (decodeOperands_movRm b1 b2)
    · exact congrArg Except.ok (decodeOperands_movMr b1 b2)
    · exact congrArg Except.ok (decodeOperands_addRr b1 b2)
    · exact congrArg Except.ok (decodeOperands_subRr b1 b2)
    · rfl

/-! ### Fetching bytes that stand in memory -/

theorem State.HoldsAt.read {s : State} {n a : Nat} {bytes : List Byte} (h : s.HoldsAt n a bytes)
    (j : Nat) (hj : j < bytes.length) : s.readByte (a + j) = bytes.getD j 0 := by
  rw [h.2 j hj, List.getD_eq_getElem _ _ hj]

/-- Bytes at `pc`, inside memory, are fetched as the decoder reads them, whatever follows. -/
theorem fetchInstr_of_holdsAt {n : Nat} {s : State} {bytes : List Byte} {i : Instr}
    (h : s.HoldsAt n s.pc.toNat bytes) (hd : decode bytes = .ok i) : fetchInstr n s = .ok i := by
  cases bytes with
  | nil => cases hd
  | cons b operands =>
    have hin : s.pc.toNat + (operands.length + 1) ≤ n := h.1
    have hb : s.readByte s.pc.toNat = b := h.read 0 (Nat.succ_pos _)
    simp only [decode] at hd
    split_ifs at hd with hinv hlen
    · rw [← Except.ok.inj hd]
      exact fetchInstr_unrecognized (by omega) (hb ▸ (classify_eq_invalid_iff b).1 hinv)
    · have h7 : b.toNat ≤ 7 := Nat.le_of_not_lt fun h8 => hinv (classify_of_ge h8)
      rw [classify_of_le h7] at hd hlen
      rw [fetchInstr_inside (hb ▸ h7) (by rw [hb]; omega), hb, ← Except.ok.inj hd]
      refine congrArg Except.ok (decodeOperands_congr h7 (fun h2 => ?_) fun h3 => ?_)
      · exact h.read 1 (by rw [List.length_cons]; omega)
      · exact h.read 2 (by rw [List.length_cons]; omega)

end Sys2Proof.Machine

/-! The ticks of an instruction (R77, R78): how a run continues, then tick 3, 4 and 5 of each
decoded instruction, and from these that five ticks are the instruction-level function (R81). -/

namespace Sys2Proof.Machine

/-! ### Continuing a run -/

/-- However many ticks a halted machine is given, nothing happens (R71). -/
theorem runTicks_halted {n : Nat} {s : State} (h : s.halted = true) (k : Nat) :
    runTicks n k s = (s, []) := by
  induction k with
  | zero => rfl
  | succ k ih => simp [runTicks_succ, tickReply_halted h, ih]

/-- One more tick after `k`. -/
theorem runTicks_then {n k : Nat} {s t : State} {l : List Notice} {r : Reply}
    (h : runTicks n k s = (t, l)) (ht : tickReply n t = r) :
    runTicks n (k + 1) s = (r.state, l ++ r.notice.toList) := by
  rw [runTicks_add, h, runTicks_succ, ht]
  simp

theorem runTicks_then_memory {n k : Nat} {s t : State} {l : List Notice} {r : Reply}
    (h : runTicks n k s = (t, l)) (hrun : t.halted = false) (hst : t.stage = .memory)
    (hr : memoryStage n t = r) : runTicks n (k + 1) s = (r.state, l ++ r.notice.toList) :=
  runTicks_then h ((tickReply_memory hrun hst).trans hr)

theorem runTicks_then_writeback {n k : Nat} {s t : State} {l : List Notice} {r : Reply}
    (h : runTicks n k s = (t, l)) (hrun : t.halted = false) (hst : t.stage = .writeback)
    (hr : writebackStage n t = r) : runTicks n (k + 1) s = (r.state, l ++ r.notice.toList) :=
  runTicks_then h ((tickReply_writeback hrun hst).trans hr)

/-- Once the machine has halted the run stays as it is (R71). -/
theorem runTicks_stays {n j k : Nat} {s t : State} {l : List Notice}
    (h : runTicks n k s = (t, l)) (ht : t.halted = true) (hj : k ≤ j) :
    runTicks n j s = (t, l) := by
  obtain ⟨d, rfl⟩ := Nat.exists_eq_add_of_le hj
  simp [runTicks_add, h, runTicks_halted ht]

/-- Settles O11: a halted machine keeps its state under every tick and the step; a tick of a running
one is the action of its stage. -/
theorem haltedMachineIgnoresTicks : Obligations.HaltedMachineIgnoresTicks := by
  intro n k s
  refine ⟨fun h => ⟨runTicks_halted h k, ?_⟩, fun h => ?_⟩
  · rw [step, if_pos h]
  · cases hs : s.stage with
    | fetch => exact tickReply_fetch h hs
    | decode => exact tickReply_decode h hs
    | execute => exact tickReply_execute h hs
    | memory => exact tickReply_memory h hs
    | writeback => exact tickReply_writeback h hs

/-! ### Ticks 1 and 2 -/

theorem runTicks_one_inside {n : Nat} {s : State} (hr : s.Ready) (hp : s.pc.toNat < n) :
    runTicks n 1 s =
      ((s.capture (fetchedInflight (s.readByte s.pc.toNat))).goTo .decode, []) :=
  runTicks_then (runTicks_zero n s) ((tickReply_fetch hr.2 hr.1).trans (fetchStage_inside hp))

/-- The state two ticks after Fetch: a decoded instruction at Execute (R73). -/
def State.decodedAs (s : State) (i : Instr) : State := (s.capture (inflightOf i)).goTo .execute

theorem writebackStage_jmp_inside {n : Nat} {w : State} {target : Byte}
    (h : w.inflight = inflightOf (.jmp target)) (ht : w.scratch.toNat < n) :
    writebackStage n w = .quiet ((w.setPc w.scratch).goTo .fetch) :=
  (writebackStage_inflightOf n (.jmp target) w h).trans (if_pos ht)

theorem writebackStage_jmp_outside {n : Nat} {w : State} {target : Byte}
    (h : w.inflight = inflightOf (.jmp target)) (ht : ¬ w.scratch.toNat < n) :
    writebackStage n w = .raise .jumpTargetOutOfRange w.scratch.toNat w :=
  (writebackStage_inflightOf n (.jmp target) w h).trans (if_neg ht)

/-! ### Ticks 3 to 5 of each decoded instruction (R100 to R130) -/

section
variable {n : Nat} {s : State} (hr : s.Ready)
include hr

/-- Tick 3 is Execute on the record of the decoded instruction (R74). -/
theorem runTicks_three {i : Instr} {r : Reply} (h : fetchInstr n s = .ok i)
    (he : executeStage (s.decodedAs i) = r) : runTicks n 3 s = (r.state, r.notice.toList) := by
  have hrun : (s.decodedAs i).halted = false := hr.2
  exact runTicks_then (runTicks_two_of_ok hr h) ((tickReply_execute hrun rfl).trans he)

theorem runTicks_halt (h : fetchInstr n s = .ok .halt) {k : Nat} (hk : 3 ≤ k) :
    runTicks n k s = ((s.decodedAs .halt).halt.goTo .memory, []) :=
  runTicks_stays (runTicks_three hr h (executeStage_inflightOf .halt _ rfl)) rfl hk

theorem runTicks_invalid (h : fetchInstr n s = .ok .invalid) {k : Nat} (hk : 3 ≤ k) :
    runTicks n k s = (((s.decodedAs .invalid).goTo .memory).halt,
      [⟨.invalidOpcode, (s.readByte s.pc.toNat).toNat⟩]) :=
  runTicks_stays (runTicks_three hr h (executeStage_inflightOf .invalid _ rfl)) rfl hk

/-- An instruction whose Execute and Memory ticks go on quietly (R74 to R76). -/
theorem runTicks_quiet {i : Instr} {m w : State} {r : Reply} (h : fetchInstr n s = .ok i)
    (he : executeStage (s.decodedAs i) = .quiet (m.goTo .memory)) (hm : m.halted = false)
    (hmem : memoryStage n (m.goTo .memory) = .quiet (w.goTo .writeback)) (hw : w.halted = false)
    (hwb : writebackStage n (w.goTo .writeback) = r) :
    runTicks n 3 s = (m.goTo .memory, []) ∧ runTicks n 4 s = (w.goTo .writeback, []) ∧
      runTicks n 5 s = (r.state, r.notice.toList) := by
  have h3 := runTicks_three hr h he
  have h4 := runTicks_then_memory h3 hm rfl hmem
  exact ⟨h3, h4, runTicks_then_writeback h4 hw rfl hwb⟩

theorem runTicks_nop (h : fetchInstr n s = .ok .nop) :
    runTicks n 3 s = ((s.decodedAs .nop).goTo .memory, []) ∧
      runTicks n 4 s = ((s.decodedAs .nop).goTo .writeback, []) ∧
      runTicks n 5 s = (((s.decodedAs .nop).advancePc 1).goTo .fetch, []) :=
  runTicks_quiet hr h (executeStage_inflightOf .nop _ rfl) hr.2
    (memoryStage_inflightOf n .nop _ rfl) hr.2 (writebackStage_inflightOf n .nop _ rfl)

/-- MOV_RR, ADD_RR and SUB_RR: `result` goes through `scratch` into `x[rd]` (R110 to R112). -/
theorem runTicks_register {i : Instr} {rd : RegIdx} {result : Wide} (h : fetchInstr n s = .ok i)
    (hi : (∃ rs, i = .movRr rd rs ∧ result = zext16 (s.readReg rs)) ∨
      (∃ rs, i = .addRr rd rs ∧ result = aluAdd (s.readReg rd) (s.readReg rs)) ∨
      ∃ rs, i = .subRr rd rs ∧ result = aluSub (s.readReg rd) (s.readReg rs)) :
    runTicks n 3 s = (((s.decodedAs i).setScratch result).goTo .memory, []) ∧
      runTicks n 4 s = (((s.decodedAs i).setScratch result).goTo .writeback, []) ∧
      runTicks n 5 s =
        (((((s.decodedAs i).setScratch result).commit rd).advancePc 3).goTo .fetch, []) := by
  obtain ⟨rs, rfl, rfl⟩ | ⟨rs, rfl, rfl⟩ | ⟨rs, rfl, rfl⟩ := hi
  · exact runTicks_quiet hr h (executeStage_inflightOf (.movRr rd rs) _ rfl) hr.2
      (memoryStage_inflightOf n (.movRr rd rs) _ rfl) hr.2
      (writebackStage_inflightOf n (.movRr rd rs) _ rfl)
  · exact runTicks_quiet hr h (executeStage_inflightOf (.addRr rd rs) _ rfl) hr.2
      (memoryStage_inflightOf n (.addRr rd rs) _ rfl) hr.2
      (writebackStage_inflightOf n (.addRr rd rs) _ rfl)
  · exact runTicks_quiet hr h (executeStage_inflightOf (.subRr rd rs) _ rfl) hr.2
      (memoryStage_inflightOf n (.subRr rd rs) _ rfl) hr.2
      (writebackStage_inflightOf n (.subRr rd rs) _ rfl)

theorem runTicks_movRm_three {addr : Byte} {rs : RegIdx}
    (h : fetchInstr n s = .ok (.movRm addr rs)) :
    runTicks n 3 s = ((s.decodedAs (.movRm addr rs)).goTo .memory, []) :=
  runTicks_three hr h (executeStage_inflightOf (.movRm addr rs) _ rfl)

theorem runTicks_movRm_inside {addr : Byte} {rs : RegIdx}
    (h : fetchInstr n s = .ok (.movRm addr rs)) (ha : addr.toNat < n) :
    runTicks n 4 s =
        (((s.decodedAs (.movRm addr rs)).storeByte addr.toNat (s.readReg rs)).goTo .writeback, []) ∧
      runTicks n 5 s = ((((s.decodedAs (.movRm addr rs)).storeByte addr.toNat
        (s.readReg rs)).advancePc 3).goTo .fetch, []) :=
  (runTicks_quiet hr h (executeStage_inflightOf (.movRm addr rs) _ rfl) hr.2
    ((memoryStage_inflightOf n (.movRm addr rs) _ rfl).trans (if_pos ha)) hr.2
    (writebackStage_inflightOf n (.movRm addr rs) _ rfl)).2

theorem runTicks_movRm_outside {addr : Byte} {rs : RegIdx}
    (h : fetchInstr n s = .ok (.movRm addr rs)) (ha : ¬ addr.toNat < n) {k : Nat} (hk : 4 ≤ k) :
    runTicks n k s = (((s.decodedAs (.movRm addr rs)).goTo .memory).halt,
      [⟨.dataAddressOutOfRange, addr.toNat⟩]) :=
  runTicks_stays (runTicks_then_memory (runTicks_movRm_three hr h) hr.2 rfl
    ((memoryStage_inflightOf n (.movRm addr rs) _ rfl).trans (if_neg ha))) rfl hk

theorem runTicks_movMr_three {rd : RegIdx} {addr : Byte}
    (h : fetchInstr n s = .ok (.movMr rd addr)) :
    runTicks n 3 s = ((s.decodedAs (.movMr rd addr)).goTo .memory, []) :=
  runTicks_three hr h (executeStage_inflightOf (.movMr rd addr) _ rfl)

theorem runTicks_movMr_inside {rd : RegIdx} {addr : Byte}
    (h : fetchInstr n s = .ok (.movMr rd addr)) (ha : addr.toNat < n) :
    runTicks n 4 s = (((s.decodedAs (.movMr rd addr)).setScratch
        (zext16 (s.readByte addr.toNat))).goTo .writeback, []) ∧
      runTicks n 5 s = (((((s.decodedAs (.movMr rd addr)).setScratch
        (zext16 (s.readByte addr.toNat))).commit rd).advancePc 3).goTo .fetch, []) :=
  (runTicks_quiet hr h (executeStage_inflightOf (.movMr rd addr) _ rfl) hr.2
    ((memoryStage_inflightOf n (.movMr rd addr) _ rfl).trans (if_pos ha)) hr.2
    (writebackStage_inflightOf n (.movMr rd addr) _ rfl)).2

theorem runTicks_movMr_outside {rd : RegIdx} {addr : Byte}
    (h : fetchInstr n s = .ok (.movMr rd addr)) (ha : ¬ addr.toNat < n) {k : Nat} (hk : 4 ≤ k) :
    runTicks n k s = (((s.decodedAs (.movMr rd addr)).goTo .memory).halt,
      [⟨.dataAddressOutOfRange, addr.toNat⟩]) :=
  runTicks_stays (runTicks_then_memory (runTicks_movMr_three hr h) hr.2 rfl
    ((memoryStage_inflightOf n (.movMr rd addr) _ rfl).trans (if_neg ha))) rfl hk

theorem runTicks_jmp_four {target : Byte} (h : fetchInstr n s = .ok (.jmp target)) :
    runTicks n 3 s = (((s.decodedAs (.jmp target)).setScratch (zext16 target)).goTo .memory, []) ∧
      runTicks n 4 s =
        (((s.decodedAs (.jmp target)).setScratch (zext16 target)).goTo .writeback, []) := by
  obtain ⟨h3, h4, -⟩ := runTicks_quiet hr h (executeStage_inflightOf (.jmp target) _ rfl) hr.2
    (memoryStage_inflightOf n (.jmp target) _ rfl) hr.2 rfl
  exact ⟨h3, h4⟩

theorem runTicks_jmp_inside {target : Byte} (h : fetchInstr n s = .ok (.jmp target))
    (ht : target.toNat < n) :
    runTicks n 5 s = ((((s.decodedAs (.jmp target)).setScratch (zext16 target)).setPc
      (zext16 target)).goTo .fetch, []) := by
  rw [← zext16_toNat] at ht
  exact runTicks_then_writeback (runTicks_jmp_four hr h).2 hr.2 rfl
    (writebackStage_jmp_inside rfl ht)

theorem runTicks_jmp_outside {target : Byte} (h : fetchInstr n s = .ok (.jmp target))
    (ht : ¬ target.toNat < n) {k : Nat} (hk : 5 ≤ k) :
    runTicks n k s =
      ((((s.decodedAs (.jmp target)).setScratch (zext16 target)).goTo .writeback).halt,
        [⟨.jumpTargetOutOfRange, target.toNat⟩]) := by
  rw [← zext16_toNat] at ht ⊢
  exact runTicks_stays (runTicks_then_writeback (runTicks_jmp_four hr h).2 hr.2 rfl
    (writebackStage_jmp_outside rfl ht)) rfl hk

/-! ### Five ticks and one instruction -/

/-- Five ticks of a decoded instruction are its effect (R81). -/
theorem runTicks_five_of_ok {i : Instr} (h : fetchInstr n s = .ok i) :
    runTicks n 5 s = ((effect n i s).state, (effect n i s).notice.toList) := by
  cases i with
  | halt => exact runTicks_halt hr h (by decide)
  | invalid => exact runTicks_invalid hr h (by decide)
  | nop => exact (runTicks_nop hr h).2.2
  | movRr rd rs => exact (runTicks_register hr h (.inl ⟨rs, rfl, rfl⟩)).2.2
  | addRr rd rs => exact (runTicks_register hr h (.inr (.inl ⟨rs, rfl, rfl⟩))).2.2
  | subRr rd rs => exact (runTicks_register hr h (.inr (.inr ⟨rs, rfl, rfl⟩))).2.2
  | movRm addr rs =>
    rw [effect]
    by_cases ha : addr.toNat < n
    · rw [movRm_inside rs s ha]
      exact (runTicks_movRm_inside hr h ha).2
    · rw [movRm_outside rs s ha, dataFault, effectiveAddress_eq]
      exact runTicks_movRm_outside hr h ha (by decide)
  | movMr rd addr =>
    rw [effect]
    by_cases ha : addr.toNat < n
    · rw [movMr_inside rd s ha]
      exact (runTicks_movMr_inside hr h ha).2
    · rw [movMr_outside rd s ha, dataFault, effectiveAddress_eq]
      exact runTicks_movMr_outside hr h ha (by decide)
  | jmp target =>
    rw [effect]
    by_cases ht : target.toNat < n
    · rw [jmp_inside s ht]
      exact runTicks_jmp_inside hr h ht
    · rw [jmp_outside s ht]
      exact runTicks_jmp_outside hr h ht (le_refl 5)

end

theorem instruction_of_ok {n : Nat} {s : State} {i : Instr} (h : fetchInstr n s = .ok i) :
    instruction n s = effect n i s := by rw [instruction, h]

theorem instruction_of_error {n : Nat} {s : State} {r : Reply} (h : fetchInstr n s = .error r) :
    instruction n s = r := by rw [instruction, h]

/-- Settles O9: a fetch that fails is the first or the second tick, and the machine is halted then;
a decoded instruction's five ticks are its effect. -/
theorem fiveTicksEqualOneInstruction : Obligations.FiveTicksEqualOneInstruction := by
  intro n s hr
  cases h : fetchInstr n s with
  | ok i => rw [instruction_of_ok h, runTicks_five_of_ok hr h]
  | error r =>
    rw [instruction_of_error h]
    obtain ⟨rfl, h1⟩ | ⟨d, -, h1, rfl, h2⟩ := runTicks_of_error hr h
    · exact runTicks_stays (runTicks_then (runTicks_zero n s) h1) rfl (by decide)
    · exact runTicks_stays (runTicks_then (runTicks_then (runTicks_zero n s) h1) h2) rfl (by decide)

/-! ### The step -/

/-- The step of a machine ready for an instruction is the instruction-level function at the
hardware's size. -/
theorem step_of_ready {s : State} (hr : s.Ready) :
    step s = .next (instruction Config.memSize s).state := by
  obtain ⟨hfetch, hrun⟩ := hr
  cases h : fetchInstr Config.memSize s with
  | ok i => simp [step, hfetch, hrun, h, instruction_of_ok h, exec_eq_effect]
  | error r => simp [step, hfetch, hrun, h, instruction_of_error h]

/-- The step of a machine with an instruction at `pc` is `exec` of it. -/
theorem step_of_fetchInstr {s : State} {i : Instr} (hr : s.Ready)
    (h : fetchInstr Config.memSize s = .ok i) : step s = exec i s := by
  rw [step_of_ready hr, instruction_of_ok h, exec_eq_effect]

/-- Settles O6: bytes in memory are fetched as the decoder reads them. -/
theorem stepRunsTheDecodedInstruction : Obligations.StepRunsTheDecodedInstruction :=
  fun _ _ _ hr hbytes hdecode => step_of_fetchInstr hr (fetchInstr_of_holdsAt hbytes hdecode)

/-- Settles O8: a halted machine ignores the ticks; at Fetch the step is the instruction-level
function, which is five ticks; elsewhere the step is the remaining ticks by definition. -/
theorem stepIsTheTicksToTheNextFetch : Obligations.StepIsTheTicksToTheNextFetch := by
  intro s
  cases hh : s.halted with
  | true => rw [step, if_pos hh, ticks, runTicks_halted hh]
  | false =>
    cases hs : s.stage with
    | fetch =>
      rw [step_of_ready ⟨hs, hh⟩, ticks, ticksLeft, fiveTicksEqualOneInstruction _ s ⟨hs, hh⟩]
    | _ => simp [step, finishInFlight, ticks, hh, hs]

/-- Settles O10: the ticks to the next Fetch always end in a state. -/
theorem everyStepAnswersANextState : Obligations.EveryStepAnswersANextState :=
  fun s => ⟨_, stepIsTheTicksToTheNextFetch s⟩

/-- Settles O7: past the end the fetch fails in its first tick, and an operand byte past the end in
its second, with the fetched record. -/
theorem stepHaltsWhereNoWholeInstructionLies :
    Obligations.StepHaltsWhereNoWholeInstructionLies := by
  intro s hr
  rw [step_of_ready hr]
  refine ⟨fun hp => ?_, fun b0 hp hb hout => ?_⟩
  · rw [instruction_of_error (fetchInstr_outside (n := Config.memSize) hp)]
    rfl
  · obtain ⟨h7, ho⟩ : b0.toNat ≤ 7 ∧ 256 ≤ s.pc.toNat + opLength b0 - 1 := by
      obtain ⟨rfl, hpc⟩ | ⟨h2, h6, hpc⟩ := hout
      · rw [hpc]
        decide
      · rw [opLength_eq, if_neg (by omega), if_pos ⟨h2, h6⟩]
        omega
    subst hb
    rw [instruction_of_error (fetchInstr_operandOutside (n := Config.memSize) hp h7 ho)]
    rfl

end Sys2Proof.Machine

/-! The tick tables of the instructions (R100 to R130), with their bytes at `pc` anywhere inside
memory. -/

namespace Sys2Proof.Machine

/-! ### Ticks 1 and 2 from bytes in memory -/

section
variable {n : Nat} {s : State} (hr : s.Ready)
include hr

/-- Tick 1 captures the opcode byte at `pc` (R72). -/
theorem runTicks_one_of_holdsAt {b : Byte} {operands : List Byte}
    (h : s.HoldsAt n s.pc.toNat (b :: operands)) :
    runTicks n 1 s = ((s.capture (fetchedInflight b)).goTo .decode, []) := by
  have hlen := h.1
  rw [List.length_cons] at hlen
  have hb : s.readByte s.pc.toNat = b := h.read 0 (Nat.succ_pos _)
  rw [runTicks_one_inside hr (by omega), hb]

/-- Ticks 1 and 2 of an instruction whose bytes stand at `pc` (R72, R73). -/
theorem runTicks_one_two {b : Byte} {operands : List Byte} {i : Instr}
    (h : s.HoldsAt n s.pc.toNat (b :: operands)) (hd : decode (b :: operands) = .ok i) :
    (runTicks n 1 s).1 = (s.capture (fetchedInflight b)).goTo .decode ∧
      (runTicks n 2 s).1 = s.decodedAs i :=
  ⟨congrArg Prod.fst (runTicks_one_of_holdsAt hr h),
    congrArg Prod.fst (runTicks_two_of_ok hr (fetchInstr_of_holdsAt h hd))⟩

end

/-! ### HALT, NOP and the Invalid class -/

/-- Settles O38: HALT stops at tick 3. -/
theorem haltTicks : Obligations.HaltTicks := by
  intro n s hr hbytes
  obtain ⟨h1, h2⟩ := runTicks_one_two (i := .halt) hr hbytes rfl
  exact ⟨h1, h2, fun k => runTicks_halt hr (fetchInstr_of_holdsAt hbytes rfl)⟩

/-- Settles O39: NOP passes the stages and advances at tick 5. -/
theorem nopTicks : Obligations.NopTicks := by
  intro n s hr hbytes
  obtain ⟨h1, h2⟩ := runTicks_one_two (i := .nop) hr hbytes rfl
  obtain ⟨h3, h4, h5⟩ := runTicks_nop hr (fetchInstr_of_holdsAt hbytes rfl)
  exact ⟨h1, h2, congrArg Prod.fst h3, congrArg Prod.fst h4, h5⟩

/-- A whole three-byte instruction with a register-index byte above 7 is Invalid (R58). -/
theorem decode_badIndex {b b1 b2 : Byte}
    (h : ((b = 2 ∨ b = 5 ∨ b = 6) ∧ (7 < b1.toNat ∨ 7 < b2.toNat)) ∨
      (b = 3 ∧ 7 < b2.toNat) ∨ (b = 4 ∧ 7 < b1.toNat)) : decode [b, b1, b2] = .ok .invalid := by
  obtain ⟨rfl | rfl | rfl, hbad⟩ | ⟨rfl, hbad⟩ | ⟨rfl, hbad⟩ := h
  · exact congrArg Except.ok ((decodeOperands_movRr b1 b2).trans (if_pos hbad))
  · exact congrArg Except.ok ((decodeOperands_addRr b1 b2).trans (if_pos hbad))
  · exact congrArg Except.ok ((decodeOperands_subRr b1 b2).trans (if_pos hbad))
  · exact congrArg Except.ok ((decodeOperands_movRm b1 b2).trans (if_pos hbad))
  · exact congrArg Except.ok ((decodeOperands_movMr b1 b2).trans (if_pos hbad))

/-- An unrecognised opcode byte is Invalid (R57). -/
theorem decode_unrecognized {b : Byte} (h : 8 ≤ b.toNat) : decode [b] = .ok .invalid := by
  rw [decode, if_pos (classify_of_ge h)]

/-- Settles O40: both forms decode to Invalid, which faults at tick 3 with the byte at `pc`. -/
theorem invalidTicks : Obligations.InvalidTicks := by
  intro n s b b1 b2 hr hform
  obtain ⟨operands, hbytes, hd⟩ : ∃ operands, s.HoldsAt n s.pc.toNat (b :: operands) ∧
      decode (b :: operands) = .ok .invalid := by
    obtain ⟨h8, hbytes⟩ | ⟨hbytes, hbad⟩ := hform
    · exact ⟨_, hbytes, decode_unrecognized h8⟩
    · exact ⟨_, hbytes, decode_badIndex hbad⟩
  have hfetch := fetchInstr_of_holdsAt hbytes hd
  have hb : s.readByte s.pc.toNat = b := hbytes.read 0 (Nat.succ_pos _)
  refine ⟨(runTicks_one_two hr hbytes hd).1, runTicks_two_of_ok hr hfetch, fun k hk => ?_⟩
  rw [runTicks_invalid hr hfetch hk, hb]
  rfl

/-! ### The register instructions -/

/-- Settles O41: the three differ only in the result that Execute puts in `scratch`. -/
theorem registerInstructionTicks : Obligations.RegisterInstructionTicks := by
  intro n s rd rs op result hr hmem hbytes e
  obtain ⟨i, hd, hi, he⟩ : ∃ i, decode [op, rd.setWidth 8, rs.setWidth 8] = .ok i ∧
      ((∃ rs, i = .movRr rd rs ∧ result = zext16 (s.readReg rs)) ∨
        (∃ rs, i = .addRr rd rs ∧ result = aluAdd (s.readReg rd) (s.readReg rs)) ∨
        ∃ rs, i = .subRr rd rs ∧ result = aluSub (s.readReg rd) (s.readReg rs)) ∧
      s.decodedAs i = e := by
    simp only [List.mem_cons, List.not_mem_nil, or_false, Prod.mk.injEq] at hmem
    obtain ⟨rfl, rfl⟩ | ⟨rfl, rfl⟩ | ⟨rfl, rfl⟩ := hmem
    · exact ⟨_, decode_encode (.movRr rd rs), .inl ⟨rs, rfl, rfl⟩, rfl⟩
    · exact ⟨_, decode_encode (.addRr rd rs), .inr (.inl ⟨rs, rfl, rfl⟩), rfl⟩
    · exact ⟨_, decode_encode (.subRr rd rs), .inr (.inr ⟨rs, rfl, rfl⟩), rfl⟩
  obtain ⟨h1, h2⟩ := runTicks_one_two hr hbytes hd
  obtain ⟨h3, h4, h5⟩ := runTicks_register hr (fetchInstr_of_holdsAt hbytes hd) hi
  rw [he] at h2 h3 h4 h5
  exact ⟨h1, h2, congrArg Prod.fst h3, congrArg Prod.fst h4, h5⟩

/-! ### The store, the load and the jump -/

/-- Settles O42: the store, or the fault of its address, at tick 4. -/
theorem storeTicks : Obligations.StoreTicks := by
  intro n s addr rs hr hbytes
  have hd := decode_encode (.movRm addr rs)
  have hfetch := fetchInstr_of_holdsAt hbytes hd
  obtain ⟨h1, h2⟩ := runTicks_one_two hr hbytes hd
  refine ⟨h1, h2, congrArg Prod.fst (runTicks_movRm_three hr hfetch), fun ha => ?_,
    fun ha k => runTicks_movRm_outside hr hfetch (Nat.not_lt.2 ha)⟩
  obtain ⟨h4, h5⟩ := runTicks_movRm_inside hr hfetch ha
  exact ⟨congrArg Prod.fst h4, h5⟩

/-- Settles O43: the load, or the fault of its address, at tick 4; the register at tick 5. -/
theorem loadTicks : Obligations.LoadTicks := by
  intro n s rd addr hr hbytes
  have hd := decode_encode (.movMr rd addr)
  have hfetch := fetchInstr_of_holdsAt hbytes hd
  obtain ⟨h1, h2⟩ := runTicks_one_two hr hbytes hd
  refine ⟨h1, h2, congrArg Prod.fst (runTicks_movMr_three hr hfetch), fun ha => ?_,
    fun ha k => runTicks_movMr_outside hr hfetch (Nat.not_lt.2 ha)⟩
  obtain ⟨h4, h5⟩ := runTicks_movMr_inside hr hfetch ha
  refine ⟨congrArg Prod.fst h4, h5.trans ?_⟩
  rw [State.commit, State.setScratch_scratch, lowByte_zext16]
  rfl

/-- Settles O44: the target waits in `scratch` from tick 3 and is tested at tick 5. -/
theorem jumpTicks : Obligations.JumpTicks := by
  intro n s target hr hbytes
  have hfetch := fetchInstr_of_holdsAt hbytes (decode_encode (.jmp target))
  obtain ⟨h1, h2⟩ := runTicks_one_two hr hbytes (decode_encode (.jmp target))
  obtain ⟨h3, h4⟩ := runTicks_jmp_four hr hfetch
  exact ⟨h1, h2, congrArg Prod.fst h3, congrArg Prod.fst h4, runTicks_jmp_inside hr hfetch,
    fun ht k => runTicks_jmp_outside hr hfetch (Nat.not_lt.2 ht)⟩

/-! ### Reset, ticked alone -/

/-- Settles O47: the values of R170, and reset from any state gives them. -/
theorem resetValues : Obligations.ResetValues := by
  refine fun s => ⟨rfl, fun _ => rfl, fun r => ?_, rfl, rfl, rfl, rfl, rfl⟩
  simp [State.reset, State.readReg]

/-- Settles O48: the reset memory begins with the byte of HALT. -/
theorem resetTickedAloneHalts : Obligations.ResetTickedAloneHalts := by
  intro k
  have hbytes : State.reset.HoldsAt Config.memSize State.reset.pc.toNat [0x00] := by
    unfold State.HoldsAt
    decide
  rcases Nat.lt_or_ge k 3 with hk | hk
  · interval_cases k <;> decide
  · have hstop := (haltTicks Config.memSize State.reset ⟨rfl, rfl⟩ hbytes).2.2 k hk
    rw [ticks, hstop, decide_eq_true hk]
    exact ⟨rfl, rfl⟩

end Sys2Proof.Machine

/-! One tick: what it notifies (R140), what it leaves of `stage` and `halted` (R77, R147), and which
elements it writes (R72 to R76). -/

namespace Sys2Proof.Machine

/-! ### The notification of each stage (R141 to R145) -/

theorem fetchStage_notice (n : Nat) (s : State) :
    (fetchStage n s).notice =
      if n ≤ s.pc.toNat then some ⟨.pcOutOfRange, s.pc.toNat⟩ else none := by
  obtain ⟨hin, hr⟩ | ⟨hout, hr⟩ := fetchStage_cases n s
  · simp [hr, Nat.not_le.2 hin]
  · simp [hr, hout]

theorem decodeStage_notice (n : Nat) (s : State) :
    (decodeStage n s).notice =
      if 2 ≤ s.inflight.op.toNat ∧ s.inflight.op.toNat ≤ 7 ∧
          n ≤ s.pc.toNat + (if s.inflight.op.toNat = 7 then 2 else 3) - 1 then
        some ⟨.operandFetchOutOfRange,
          if n ≤ s.pc.toNat + 1 then s.pc.toNat + 1 else s.pc.toNat + 2⟩
      else none := by
  have hlen := opLength_eq s.inflight.op
  obtain ⟨h8, hr⟩ | ⟨h7, hin, hr⟩ | ⟨h7, hl, hout, hr⟩ := decodeStage_cases n s
  · rw [hr, if_neg (by omega)]
    rfl
  · rw [hr, if_neg (by split_ifs at hlen ⊢ <;> omega)]
    rfl
  · rw [hr, if_pos (by split_ifs at hlen ⊢ <;> omega), Reply.raise_notice, firstOutside_eq]

theorem executeStage_notice (s : State) :
    (executeStage s).notice =
      if 8 ≤ s.inflight.op.toNat then some ⟨.invalidOpcode, (s.readByte s.pc.toNat).toNat⟩
      else none := by
  obtain ⟨h0, hr⟩ | ⟨h8, hr⟩ | ⟨-, h7, ⟨v, -, hr⟩ | ⟨-, hr⟩⟩ := executeStage_cases s
  · rw [hr, h0]
    rfl
  · rw [hr, if_pos h8]
    rfl
  · rw [hr, if_neg (by omega)]
    rfl
  · rw [hr, if_neg (by omega)]
    rfl

theorem memoryStage_notice (n : Nat) (s : State) :
    (memoryStage n s).notice =
      if (s.inflight.op = opMovRm ∨ s.inflight.op = opMovMr) ∧ n ≤ s.inflight.imm.toNat then
        some ⟨.dataAddressOutOfRange, s.inflight.imm.toNat⟩
      else none := by
  obtain ⟨-, hin, hr⟩ | ⟨-, hin, hr⟩ | ⟨hop, hout, hr⟩ | ⟨hs, hl, hr⟩ := memoryStage_cases n s
  · simp [hr, Nat.not_le.2 hin]
  · simp [hr, Nat.not_le.2 hin]
  · simp [hr, hop, hout]
  · simp [hr, hs, hl]

theorem writebackStage_notice (n : Nat) (s : State) :
    (writebackStage n s).notice =
      if s.inflight.op = opJmp ∧ n ≤ s.scratch.toNat then
        some ⟨.jumpTargetOutOfRange, s.scratch.toNat⟩
      else none := by
  obtain ⟨-, hin, hr⟩ | ⟨hop, hout, hr⟩ | ⟨hop, -, hr⟩ | ⟨hop, -, hr⟩ := writebackStage_cases n s
  · simp [hr, Nat.not_le.2 hin]
  · simp [hr, hop, hout]
  · simp [hr, hop]
  · simp [hr, hop]

/-- Settles O21: each fault belongs to one stage, whose notification is given above. -/
theorem eachFaultIsRaisedExactlyWhen : Obligations.EachFaultIsRaisedExactlyWhen := by
  intro n s v raises runs op len
  have hnum : ∀ c : Byte, s.inflight.op = c ↔ s.inflight.op.toNat = c.toNat := fun c =>
    BitVec.toNat_inj.symm
  simp only [raises, runs, op, len]
  cases hh : s.halted with
  | true => simp [tickReply_halted hh]
  | false =>
    cases hs : s.stage with
    | fetch => simp [tickReply_fetch hh hs, fetchStage_notice, eq_comm]
    | decode => simp [tickReply_decode hh hs, decodeStage_notice, and_assoc, eq_comm]
    | execute => simp [tickReply_execute hh hs, executeStage_notice, eq_comm]
    | memory =>
      simp [tickReply_memory hh hs, memoryStage_notice, hnum, opMovRm, opMovMr, and_assoc, eq_comm]
    | writeback =>
      simp [tickReply_writeback hh hs, writebackStage_notice, hnum, opJmp, and_assoc, eq_comm]

/-! ### `stage` and `halted` after a tick -/

/-- Outside Execute a tick either goes on, running, at the next stage, or raises a fault other than
InvalidOpcode and changes nothing but `halted` (R77, R147). -/
theorem tickReply_of_not_execute {n : Nat} {s : State} (hrun : s.halted = false)
    (hs : s.stage ≠ .execute) :
    (∃ t, tickReply n s = .quiet t ∧ t.stage = s.stage.successor ∧ t.halted = false) ∨
      ∃ f v, f ≠ .invalidOpcode ∧ tickReply n s = .raise f v s := by
  refine tickReply_cases (P := fun r =>
    (∃ t, r = .quiet t ∧ t.stage = s.stage.successor ∧ t.halted = false) ∨
      ∃ f v, f ≠ .invalidOpcode ∧ r = .raise f v s)
    ?still ?fetch ?decode ?execute ?memory ?writeback
  case still => exact fun hh => absurd (hh.symm.trans hrun) (by decide)
  case execute => exact fun _ hst => absurd hst hs
  case fetch =>
    intro _ hst
    obtain ⟨-, hr⟩ | ⟨-, hr⟩ := fetchStage_cases n s
    · exact .inl ⟨_, hr, hst ▸ rfl, hrun⟩
    · exact .inr ⟨.pcOutOfRange, _, nofun, hr⟩
  case decode =>
    intro _ hst
    obtain ⟨-, hr⟩ | ⟨-, -, hr⟩ | ⟨-, -, -, hr⟩ := decodeStage_cases n s
    · exact .inl ⟨_, hr, hst ▸ rfl, hrun⟩
    · exact .inl ⟨_, hr, hst ▸ rfl, hrun⟩
    · exact .inr ⟨.operandFetchOutOfRange, _, nofun, hr⟩
  case memory =>
    intro _ hst
    obtain ⟨-, -, hr⟩ | ⟨-, -, hr⟩ | ⟨-, -, hr⟩ | ⟨-, -, hr⟩ := memoryStage_cases n s
    · exact .inl ⟨_, hr, hst ▸ rfl, hrun⟩
    · exact .inl ⟨_, hr, hst ▸ rfl, hrun⟩
    · exact .inr ⟨.dataAddressOutOfRange, _, nofun, hr⟩
    · exact .inl ⟨_, hr, hst ▸ rfl, hrun⟩
  case writeback =>
    intro _ hst
    obtain ⟨-, -, hr⟩ | ⟨-, -, hr⟩ | ⟨-, -, hr⟩ | ⟨-, -, hr⟩ := writebackStage_cases n s
    · exact .inl ⟨_, hr, hst ▸ rfl, hrun⟩
    · exact .inr ⟨.jumpTargetOutOfRange, _, nofun, hr⟩
    · exact .inl ⟨_, hr, hst ▸ rfl, hrun⟩
    · exact .inl ⟨_, hr, hst ▸ rfl, hrun⟩

/-- Execute stops the machine exactly for HALT and Invalid (R74). -/
theorem executeStage_halted_iff {s : State} (hrun : s.halted = false) :
    (executeStage s).state.halted = true ↔ s.inflight.op = opHalt ∨ 8 ≤ s.inflight.op.toNat := by
  obtain ⟨h0, hr⟩ | ⟨h8, hr⟩ | ⟨h1, h7, hr⟩ := executeStage_cases s
  · simp [hr, h0]
  · simp [hr, h8]
  · have hne : s.inflight.op ≠ opHalt := fun h => absurd (h ▸ h1) (by decide)
    obtain ⟨v, -, hr⟩ | ⟨-, hr⟩ := hr <;> simp [hr, hrun, hne, Nat.lt_succ_of_le h7]

/-- Settles O12: Execute has its own row; every other stage goes on or raises a fault in place. -/
theorem stageAndHaltedAfterEachTick : Obligations.StageAndHaltedAfterEachTick := by
  intro n s r
  refine ⟨fun hh => ?_, fun hrun => ⟨fun hs => ?_, fun hs hquiet => ?_, fun hs x hx => ?_⟩⟩
  · simp [r, tickReply_halted hh, hh]
  · simp only [r, tickReply_execute hrun hs]
    exact ⟨executeStage_stage s, executeStage_halted_iff hrun⟩
  · obtain ⟨t, ht, hgo⟩ | ⟨f, v, -, ht⟩ := tickReply_of_not_execute (n := n) hrun hs
    · simpa [r, ht] using hgo
    · simp [r, ht] at hquiet
  · obtain ⟨t, ht, -⟩ | ⟨f, v, -, ht⟩ := tickReply_of_not_execute (n := n) hrun hs
    · simp [r, ht] at hx
    · simp [r, ht]

/-- Settles O22: Execute's fault is InvalidOpcode and moves to Memory; the others stay in place. -/
theorem faultEntryOnlySetsHalted : Obligations.FaultEntryOnlySetsHalted := by
  intro n s x hx
  cases hrun : s.halted with
  | true => simp [tickReply_halted hrun] at hx
  | false =>
    by_cases hs : s.stage = .execute
    · rw [tickReply_execute hrun hs] at hx ⊢
      obtain ⟨-, hr⟩ | ⟨-, hr⟩ | ⟨-, -, ⟨v, -, hr⟩ | ⟨-, hr⟩⟩ := executeStage_cases s <;>
        rw [hr] at hx ⊢
      · cases hx
      · cases hx
        rfl
      · cases hx
      · cases hx
    · obtain ⟨t, ht, -⟩ | ⟨f, v, hf, ht⟩ := tickReply_of_not_execute (n := n) hrun hs <;>
        rw [ht] at hx ⊢
      · cases hx
      · cases hx
        rw [if_neg hf]
        rfl

/-! ### Which stage writes what (R72 to R76) -/

theorem fetchStage_frame (n : Nat) (s : State) :
    (fetchStage n s).state.mem = s.mem ∧ (fetchStage n s).state.regs = s.regs ∧
      (fetchStage n s).state.pc = s.pc ∧ (fetchStage n s).state.scratch = s.scratch := by
  obtain ⟨-, hr⟩ | ⟨-, hr⟩ := fetchStage_cases n s <;> simp [hr]

theorem decodeStage_frame (n : Nat) (s : State) :
    (decodeStage n s).state.mem = s.mem ∧ (decodeStage n s).state.regs = s.regs ∧
      (decodeStage n s).state.pc = s.pc ∧ (decodeStage n s).state.scratch = s.scratch := by
  obtain ⟨-, hr⟩ | ⟨-, -, hr⟩ | ⟨-, -, -, hr⟩ := decodeStage_cases n s <;> simp [hr]

theorem executeStage_frame (s : State) :
    (executeStage s).state.mem = s.mem ∧ (executeStage s).state.regs = s.regs ∧
      (executeStage s).state.pc = s.pc ∧ (executeStage s).state.inflight = s.inflight := by
  obtain ⟨-, hr⟩ | ⟨-, hr⟩ | ⟨-, -, ⟨v, -, hr⟩ | ⟨-, hr⟩⟩ := executeStage_cases s <;> simp [hr]

theorem memoryStage_frame (n : Nat) (s : State) :
    (memoryStage n s).state.regs = s.regs ∧ (memoryStage n s).state.pc = s.pc ∧
      (memoryStage n s).state.inflight = s.inflight := by
  obtain ⟨-, -, hr⟩ | ⟨-, -, hr⟩ | ⟨-, -, hr⟩ | ⟨-, -, hr⟩ := memoryStage_cases n s <;> simp [hr]

theorem writebackStage_frame (n : Nat) (s : State) :
    (writebackStage n s).state.mem = s.mem ∧ (writebackStage n s).state.inflight = s.inflight ∧
      (writebackStage n s).state.scratch = s.scratch := by
  obtain ⟨-, -, hr⟩ | ⟨-, -, hr⟩ | ⟨-, -, hr⟩ | ⟨-, -, hr⟩ := writebackStage_cases n s <;> simp [hr]

/-- Settles O36: the frame of the stage that ticks. -/
theorem eachElementIsWrittenInItsStage : Obligations.EachElementIsWrittenInItsStage := by
  intro n s t
  cases hh : s.halted with
  | true => simp [t, tickReply_halted hh]
  | false =>
    cases hs : s.stage with
    | fetch => simp [t, tickReply_fetch hh hs, fetchStage_frame]
    | decode => simp [t, tickReply_decode hh hs, decodeStage_frame]
    | execute => simp [t, tickReply_execute hh hs, executeStage_frame]
    | memory => simp [t, tickReply_memory hh hs, memoryStage_frame]
    | writeback => simp [t, tickReply_writeback hh hs, writebackStage_frame]

end Sys2Proof.Machine

/-! The invariants of R26: every stage keeps them, so every tick, every step and every run does; and
with them the bounds on `pc` (R15) and the two faults that no run of 256 bytes raises (R39). -/

namespace Sys2Proof.Machine

/-! ### Each stage keeps the invariants -/

/-- A fault changes `halted` only, and no item asks for more of a halted machine. -/
theorem State.Inv.halt {n : Nat} {s : State} (h : s.Inv n) : s.halt.Inv n :=
  ⟨h.memory, h.pcAtMost, h.pcInside, h.decoded, fun _ => nofun, h.scratch⟩

theorem fetchStage_inv {n : Nat} {s : State} (h : s.Inv n) : (fetchStage n s).state.Inv n := by
  obtain ⟨hin, hr⟩ | ⟨-, hr⟩ := fetchStage_cases n s <;> rw [hr]
  · exact ⟨h.memory, h.pcAtMost, fun _ => hin, nofun, nofun, h.scratch⟩
  · exact h.halt

/-- Routing the operand bytes leaves the opcode number or makes the record Invalid (R54, R58). -/
theorem routeOperands_op (f : Inflight) (op b1 b2 : Byte) :
    (routeOperands f op b1 b2).op = op ∨ (routeOperands f op b1 b2).op = opInvalid := by
  unfold routeOperands
  split_ifs
  · cases regIndex b1 <;> cases regIndex b2 <;> simp
  · cases regIndex b2 <;> simp
  · cases regIndex b1 <;> simp
  · exact .inl rfl
  · exact .inl rfl

/-- Item 3 of R26 asks nothing more of an Invalid record. -/
theorem opInvalid_decoded (p : Prop) : opInvalid ≤ opInvalid ∧ (opInvalid ≤ opJmp → p) :=
  ⟨by decide, fun hle => absurd hle (by decide)⟩

/-- Item 3 of R26 for the record a Decode tick leaves. -/
theorem decodeStage_inv {n : Nat} {s : State} (hs : s.stage = .decode) (h : s.Inv n) :
    (decodeStage n s).state.Inv n := by
  have hpc : s.pc.toNat < n := h.pcInside (hs ▸ nofun)
  obtain ⟨-, hr⟩ | ⟨h7, hin, hr⟩ | ⟨-, -, -, hr⟩ := decodeStage_cases n s <;> rw [hr]
  · exact ⟨h.memory, h.pcAtMost, fun _ => hpc, fun _ => opInvalid_decoded _, nofun, h.scratch⟩
  · refine ⟨h.memory, h.pcAtMost, fun _ => hpc, fun _ => ?_, nofun, h.scratch⟩
    have hlen := opLength_le s.inflight.op
    obtain hop | hop := routeOperands_op s.inflight s.inflight.op (s.readByte (s.pc.toNat + 1))
      (s.readByte (s.pc.toNat + 2))
    · simp only [Reply.quiet_state, State.goTo_inflight, State.capture_inflight, hop]
      exact ⟨Nat.le_succ_of_le h7, fun _ => show s.pc.toNat + _ - 1 < n by omega⟩
    · simp only [Reply.quiet_state, State.goTo_inflight, State.capture_inflight, hop]
      exact opInvalid_decoded _
  · exact h.halt

/-- The range of item 6 of R26: a byte, a sum of two bytes, or a difference of two modulo 65536. -/
theorem alu_range {op a b imm : Byte} {v : Wide} (h : alu op a b imm = some v) :
    v.toNat ≤ 510 ∨ 65281 ≤ v.toNat := by
  have ha := a.isLt
  have hb := b.isLt
  have himm := imm.isLt
  unfold alu at h
  split_ifs at h <;> rw [← Option.some.inj h]
  · rw [aluPass_eq, zext16_toNat]
    omega
  · rw [aluAdd_toNat]
    omega
  · rw [aluSub_toNat]
    omega
  · rw [aluPass_eq, zext16_toNat]
    omega

theorem executeStage_inv {n : Nat} {s : State} (hs : s.stage = .execute) (h : s.Inv n) :
    (executeStage s).state.Inv n := by
  have hpc : s.pc.toNat < n := h.pcInside (hs ▸ nofun)
  have hdec := h.decoded (.inl hs)
  obtain ⟨-, hr⟩ | ⟨-, hr⟩ | ⟨h1, h7, ⟨v, hv, hr⟩ | ⟨-, hr⟩⟩ := executeStage_cases s <;> rw [hr]
  · exact ⟨h.memory, h.pcAtMost, fun _ => hpc, fun _ => hdec, fun _ => nofun, h.scratch⟩
  · exact ⟨h.memory, h.pcAtMost, fun _ => hpc, fun _ => hdec, fun _ => nofun, h.scratch⟩
  · exact ⟨h.memory, h.pcAtMost, fun _ => hpc, fun _ => hdec, fun _ _ => ⟨h1, h7⟩, alu_range hv⟩
  · exact ⟨h.memory, h.pcAtMost, fun _ => hpc, fun _ => hdec, fun _ _ => ⟨h1, h7⟩, h.scratch⟩

theorem memoryStage_inv {n : Nat} {s : State} (hs : s.stage = .memory) (hrun : s.halted = false)
    (h : s.Inv n) : (memoryStage n s).state.Inv n := by
  have hpc : s.pc.toNat < n := h.pcInside (hs ▸ nofun)
  have hdec := h.decoded (.inr (.inl hs))
  have hop := h.running (.inl hs) hrun
  obtain ⟨-, hin, hr⟩ | ⟨-, -, hr⟩ | ⟨-, -, hr⟩ | ⟨-, -, hr⟩ := memoryStage_cases n s <;> rw [hr]
  · exact ⟨Memory.write_wfAt _ h.memory hin, h.pcAtMost, fun _ => hpc, fun _ => hdec,
      fun _ _ => hop, h.scratch⟩
  · refine ⟨h.memory, h.pcAtMost, fun _ => hpc, fun _ => hdec, fun _ _ => hop, .inl ?_⟩
    have hb := (s.readByte s.inflight.imm.toNat).isLt
    simp only [Reply.quiet_state, State.goTo_scratch, State.setScratch_scratch, zext16_toNat]
    omega
  · exact h.halt
  · exact ⟨h.memory, h.pcAtMost, fun _ => hpc, fun _ => hdec, fun _ _ => hop, h.scratch⟩

/-- The advance of Writeback does not wrap: the operand bytes were inside memory (R15, R76). -/
theorem advancePc_le {n : Nat} {s : State} (hn : n ≤ 256) {k : Nat} (hk : 1 ≤ k)
    (h : s.pc.toNat + k - 1 < n) : (s.pc + BitVec.ofNat 16 k).toNat ≤ n := by
  rw [BitVec.toNat_add, BitVec.toNat_ofNat]
  omega

theorem writebackStage_inv {n : Nat} {s : State} (hn : n ≤ 256) (hs : s.stage = .writeback)
    (hrun : s.halted = false) (h : s.Inv n) : (writebackStage n s).state.Inv n := by
  have hpc : (s.pc + BitVec.ofNat 16 (opLength s.inflight.op)).toNat ≤ n :=
    advancePc_le hn (opLength_le _).1
      ((h.decoded (.inr (.inr hs))).2 (h.running (.inr hs) hrun).2)
  obtain ⟨-, hin, hr⟩ | ⟨-, -, hr⟩ | ⟨-, -, hr⟩ | ⟨-, -, hr⟩ := writebackStage_cases n s <;> rw [hr]
  · exact ⟨h.memory, Nat.le_of_lt hin, fun hne => absurd rfl hne, nofun, nofun, h.scratch⟩
  · exact h.halt
  · exact ⟨h.memory, hpc, fun hne => absurd rfl hne, nofun, nofun, h.scratch⟩
  · exact ⟨h.memory, hpc, fun hne => absurd rfl hne, nofun, nofun, h.scratch⟩

/-! ### Every tick, step and run keeps them -/

theorem tickReply_inv {n : Nat} {s : State} (hn : n ≤ 256) (h : s.Inv n) :
    (tickReply n s).state.Inv n :=
  tickReply_cases (P := fun r => r.state.Inv n) (fun _ => h) (fun _ _ => fetchStage_inv h)
    (fun _ hs => decodeStage_inv hs h) (fun _ hs => executeStage_inv hs h)
    (fun hrun hs => memoryStage_inv hs hrun h) (fun hrun hs => writebackStage_inv hn hs hrun h)

/-- What one tick keeps, a run keeps. -/
theorem runTicks_induction {n : Nat} {P : State → Prop}
    (hstep : ∀ s, P s → P (tickReply n s).state) {s : State} (h : P s) (k : Nat) :
    P (runTicks n k s).1 := by
  induction k with
  | zero => exact h
  | succ k ih =>
    rw [runTicks_succ_state]
    exact hstep _ ih

/-- Settles O15: stage by stage. -/
theorem everyTickKeepsTheInvariants : Obligations.EveryTickKeepsTheInvariants := by
  intro n s hn h
  refine ⟨tickReply_inv hn.2 h, fun hh => ?_⟩
  rw [tickReply_halted hh]
  exact hh

theorem ticks_inv {s : State} (h : s.Inv Config.memSize) (k : Nat) :
    (ticks k s).Inv Config.memSize :=
  runTicks_induction (P := State.Inv Config.memSize) (fun _ => tickReply_inv (le_refl 256)) h k

/-- Settles O16: a step is ticks. -/
theorem everyStepKeepsTheInvariants : Obligations.EveryStepKeepsTheInvariants := by
  intro s t h hstep
  rw [stepIsTheTicksToTheNextFetch s, Host.Outcome.next.injEq] at hstep
  exact hstep ▸ ticks_inv h _

/-! ### Runs from launch states -/

theorem State.Launch.inv {s : State} (h : s.Launch) : s.Inv Config.memSize where
  memory := h.memory
  pcAtMost := by simp [h.pc]
  pcInside := fun hs => absurd h.stage hs
  decoded := by simp [h.stage]
  running := by simp [h.stage]
  scratch := by simp [h.scratch]

/-- Settles O17: reset is the launch of nothing, and at Fetch most items ask nothing. -/
theorem launchStatesMeetTheInvariants : Obligations.LaunchStatesMeetTheInvariants :=
  ⟨launch_isLaunch [] [], launch_isLaunch, fun _ => State.Launch.inv⟩

/-- Settles O18: items 1 and 2 of the invariants along the run. -/
theorem pcStaysWithinMemoryOrOnePast : Obligations.PcStaysWithinMemoryOrOnePast := by
  intro s hs k
  have h := ticks_inv hs.inv k
  exact ⟨h.pcAtMost, fun hst => Nat.le_of_lt_succ (h.pcInside hst)⟩

/-! ### The jump target that waits in `scratch` -/

/-- A JMP at Execute puts its target byte in `scratch` (R74). -/
theorem executeStage_jumpTarget {s : State} (hop : s.inflight.op = opJmp) :
    (executeStage s).state.scratch = zext16 s.inflight.imm := by
  have halu : ∀ a b imm, alu opJmp a b imm = some (aluPass imm) := fun _ _ _ => rfl
  obtain ⟨h0, -⟩ | ⟨h8, -⟩ | ⟨-, -, ⟨v, hv, hr⟩ | ⟨hv, -⟩⟩ := executeStage_cases s
  · exact absurd (hop.symm.trans h0) (by decide)
  · exact absurd (hop ▸ h8) (by decide)
  · rw [hop, halu] at hv
    rw [hr]
    exact (Option.some.inj hv).symm
  · rw [hop, halu] at hv
    cases hv

/-- The Memory stage does nothing for a JMP (R75). -/
theorem memoryStage_jmp {n : Nat} {s : State} (hop : s.inflight.op = opJmp) :
    memoryStage n s = .quiet (s.goTo .writeback) := by
  obtain ⟨h, -⟩ | ⟨h, -⟩ | ⟨h | h, -⟩ | ⟨-, -, hr⟩ := memoryStage_cases n s
  · exact absurd (hop.symm.trans h) (by decide)
  · exact absurd (hop.symm.trans h) (by decide)
  · exact absurd (hop.symm.trans h) (by decide)
  · exact absurd (hop.symm.trans h) (by decide)
  · exact hr

/-- The target byte that Execute put in `scratch` stands there until Writeback. -/
theorem tickReply_jumpTargetIsByte {n : Nat} {s : State} (h : s.JumpTargetIsByte) :
    (tickReply n s).state.JumpTargetIsByte := by
  refine tickReply_cases (P := fun r => r.state.JumpTargetIsByte) (fun _ => h)
    ?fetch ?decode ?execute ?memory ?writeback
  case fetch =>
    intro _ hs
    obtain ⟨-, hr⟩ | ⟨-, hr⟩ := fetchStage_cases n s <;> rw [hr]
    · exact nofun
    · exact h
  case decode =>
    intro _ hs
    obtain ⟨-, hr⟩ | ⟨-, -, hr⟩ | ⟨-, -, -, hr⟩ := decodeStage_cases n s <;> rw [hr]
    · exact nofun
    · exact nofun
    · exact h
  case execute =>
    intro _ hs _ hop
    obtain ⟨-, -, -, hinflight⟩ := executeStage_frame s
    rw [executeStage_jumpTarget (hinflight ▸ hop), zext16_toNat]
    exact s.inflight.imm.isLt
  case memory =>
    intro _ hs _ hop
    obtain ⟨-, -, hinflight⟩ := memoryStage_frame n s
    rw [hinflight] at hop
    rw [memoryStage_jmp hop]
    exact h (.inl hs) hop
  case writeback =>
    intro _ hs _ hop
    obtain ⟨-, hinflight, hscratch⟩ := writebackStage_frame n s
    rw [hscratch]
    exact h (.inr hs) (hinflight ▸ hop)

/-- At 256 bytes an address operand and a waiting jump target are inside memory (R39). -/
theorem tickReply_notice_at_memSize {s : State} (h : s.JumpTargetIsByte) {x : Notice}
    (hx : (tickReply Config.memSize s).notice = some x) :
    x.fault ≠ .dataAddressOutOfRange ∧ x.fault ≠ .jumpTargetOutOfRange := by
  obtain ⟨f, v⟩ := x
  obtain ⟨-, -, -, hdata, hjump⟩ := eachFaultIsRaisedExactlyWhen Config.memSize s v
  refine ⟨fun hf => ?_, fun hf => ?_⟩ <;> subst hf
  · obtain ⟨-, -, hout, -⟩ := hdata.1 hx
    exact absurd s.inflight.imm.isLt (Nat.not_lt.2 hout)
  · obtain ⟨⟨-, hs⟩, hop, hout, -⟩ := hjump.1 hx
    exact absurd (h (.inr hs) (BitVec.eq_of_toNat_eq hop)) (Nat.not_lt.2 hout)

/-- Settles O20: both halves above. -/
theorem everyTickKeepsTheJumpTargetAByte : Obligations.EveryTickKeepsTheJumpTargetAByte :=
  fun _ h => ⟨tickReply_jumpTargetIsByte h, fun _ => tickReply_notice_at_memSize h⟩

/-- A notification of a run is that of one of its ticks. -/
theorem exists_tick_of_mem_notices {n k : Nat} {s : State} {x : Notice}
    (hx : x ∈ (runTicks n k s).2) :
    ∃ j, (tickReply n (runTicks n j s).1).notice = some x := by
  induction k with
  | zero => cases hx
  | succ k ih =>
    rw [runTicks_then rfl rfl, List.mem_append] at hx
    obtain hx | hx := hx
    · exact ih hx
    · exact ⟨k, Option.mem_toList.1 hx⟩

/-- Settles O19: no JMP waits in a launch state, so along its run every waiting target is a byte. -/
theorem noRunRaisesTheDataOrJumpFault : Obligations.NoRunRaisesTheDataOrJumpFault := by
  intro s hs k x hx
  have hstart : s.JumpTargetIsByte := by simp [State.JumpTargetIsByte, hs.stage]
  obtain ⟨j, hj⟩ := exists_tick_of_mem_notices hx
  exact tickReply_notice_at_memSize
    (runTicks_induction (fun _ => tickReply_jumpTargetIsByte) hstart j) hj

end Sys2Proof.Machine

/-! How an instruction stops the machine: the tick that does it (R78), the frame it leaves (R148),
the fault it reports (R150) and the cause a host infers (R152). -/

namespace Sys2Proof.Machine

/-! ### Running and quiet up to a tick -/

/-- A machine that runs after `k` ticks ran after every fewer. -/
theorem running_of_le {n j k : Nat} {s : State} (h : (runTicks n k s).1.halted = false)
    (hj : j ≤ k) : (runTicks n j s).1.halted = false := by
  cases hh : (runTicks n j s).1.halted with
  | false => rfl
  | true =>
    rw [runTicks_stays rfl hh hj, hh] at h
    exact h

/-- Where one tick stops a running machine, `halted` is set from that tick on and not before. -/
theorem halted_eq_decide {n m : Nat} {s : State} (hrun : (runTicks n m s).1.halted = false)
    (hstop : (runTicks n (m + 1) s).1.halted = true) (k : Nat) :
    (runTicks n k s).1.halted = decide (m + 1 ≤ k) := by
  by_cases hk : m + 1 ≤ k
  · rw [runTicks_stays rfl hstop hk, hstop, decide_eq_true hk]
  · rw [running_of_le hrun (by omega), decide_eq_false hk]

/-- A tick that leaves the machine running notifies nothing (R147). -/
theorem quiet_of_tickReply_running {n : Nat} {s : State}
    (h : (tickReply n s).state.halted = false) : (tickReply n s).notice = none := by
  cases hx : (tickReply n s).notice with
  | none => rfl
  | some x =>
    rw [faultEntryOnlySetsHalted n s x hx] at h
    cases h

/-- A machine still running has notified nothing. -/
theorem quiet_of_running {n k : Nat} {s : State} (h : (runTicks n k s).1.halted = false) :
    (runTicks n k s).2 = [] := by
  induction k with
  | zero => rfl
  | succ k ih =>
    rw [runTicks_then rfl rfl] at h ⊢
    rw [ih (running_of_tickReply_running h), quiet_of_tickReply_running h]
    rfl

/-- A run that stops, stops at one tick, whose reply is all that the run shows. -/
theorem exists_stopping_tick {n k : Nat} {s : State} (hrun : s.halted = false)
    (h : (runTicks n k s).1.halted = true) :
    ∃ m < k, (runTicks n m s).1.halted = false ∧
      runTicks n k s = ((tickReply n (runTicks n m s).1).state,
        (tickReply n (runTicks n m s).1).notice.toList) := by
  induction k with
  | zero => exact absurd (hrun.symm.trans h) (by decide)
  | succ k ih =>
    cases hk : (runTicks n k s).1.halted with
    | false =>
      refine ⟨k, Nat.lt_succ_self k, hk, ?_⟩
      rw [runTicks_then rfl rfl, quiet_of_running hk, List.nil_append]
    | true =>
      obtain ⟨m, hm, hrunm, hstop⟩ := ih hk
      exact ⟨m, Nat.lt_succ_of_lt hm, hrunm,
        (runTicks_stays rfl hk (Nat.le_succ k)).trans hstop⟩

/-- A reply is its state and its notification. -/
theorem Reply.eq_of_pair {r r' : Reply}
    (h : (r.state, r.notice.toList) = (r'.state, r'.notice.toList)) : r = r' := by
  obtain ⟨t, x⟩ := r
  obtain ⟨t', x'⟩ := r'
  obtain ⟨rfl, hx⟩ := Prod.mk.inj h
  cases x <;> cases x' <;> simp_all

/-- An instruction that stops the machine answers what its stopping tick answers. -/
theorem instruction_eq_stopping_tick {n : Nat} {s : State} (hr : s.Ready)
    (h : (instruction n s).state.halted = true) :
    ∃ m < 5, (runTicks n m s).1.halted = false ∧
      instruction n s = tickReply n (runTicks n m s).1 := by
  have hfive := fiveTicksEqualOneInstruction n s hr
  obtain ⟨m, hm, hrun, hstop⟩ := exists_stopping_tick (k := 5) hr.2 (by rwa [hfive])
  exact ⟨m, hm, hrun, Reply.eq_of_pair (hfive.symm.trans hstop)⟩

/-! ### The tick that stops (R78) -/

/-- Each stage stops the machine for its own causes only: the tick of R78 is the stage's number. -/
theorem stopTick_of_stopping_tick {n : Nat} {s : State} (hrun : s.halted = false) :
    (tickReply n s).state.halted = true →
      stopTick (tickReply n s).stopCause = 6 - ticksLeft s.stage := by
  refine tickReply_cases
    (P := fun r => r.state.halted = true → stopTick r.stopCause = 6 - ticksLeft s.stage)
    ?still ?fetch ?decode ?execute ?memory ?writeback
  case still => exact fun hh => absurd (hh.symm.trans hrun) (by decide)
  case fetch =>
    intro _ hs
    obtain ⟨-, hr⟩ | ⟨-, hr⟩ := fetchStage_cases n s <;>
      simp [hr, hrun, hs, Reply.stopCause, stopTick, ticksLeft]
  case decode =>
    intro _ hs
    obtain ⟨-, hr⟩ | ⟨-, -, hr⟩ | ⟨-, -, -, hr⟩ := decodeStage_cases n s <;>
      simp [hr, hrun, hs, Reply.stopCause, stopTick, ticksLeft]
  case execute =>
    intro _ hs
    obtain ⟨-, hr⟩ | ⟨-, hr⟩ | ⟨-, -, ⟨v, -, hr⟩ | ⟨-, hr⟩⟩ := executeStage_cases s <;>
      simp [hr, hrun, hs, Reply.stopCause, stopTick, ticksLeft]
  case memory =>
    intro _ hs
    obtain ⟨-, -, hr⟩ | ⟨-, -, hr⟩ | ⟨-, -, hr⟩ | ⟨-, -, hr⟩ := memoryStage_cases n s <;>
      simp [hr, hrun, hs, Reply.stopCause, stopTick, ticksLeft]
  case writeback =>
    intro _ hs
    obtain ⟨-, -, hr⟩ | ⟨-, -, hr⟩ | ⟨-, -, hr⟩ | ⟨-, -, hr⟩ := writebackStage_cases n s <;>
      simp [hr, hrun, hs, Reply.stopCause, stopTick, ticksLeft]

/-- Settles O13: a running machine passes the stages in order, and the tick that stops it is its
stage's number. -/
theorem instructionsTakeTheirTicks : Obligations.InstructionsTakeTheirTicks := by
  intro n s hr r
  have hfive : (runTicks n 5 s).1 = r.state :=
    congrArg Prod.fst (fiveTicksEqualOneInstruction n s hr)
  refine ⟨fun hrun => ?_, fun hstop k => ?_⟩
  · rw [← hfive] at hrun
    have hstage : ∀ k ≤ 5, (runTicks n k s).1.stage = Stage.successor^[k] .fetch := fun k hk =>
      hr.1 ▸ runTicks_stage_of_running (running_of_le hrun hk)
    exact ⟨⟨hstage 5 (by decide), hrun⟩, hstage 1 (by decide), hstage 2 (by decide),
      hstage 3 (by decide), hstage 4 (by decide)⟩
  · obtain ⟨m, hm, hrun, hreply⟩ := instruction_eq_stopping_tick hr hstop
    have hnumber : ∀ m < 5, 6 - ticksLeft (Stage.successor^[m] .fetch) = m + 1 := by decide
    have htick : stopTick (instruction n s).stopCause = m + 1 := by
      rw [← hnumber m hm, ← hr.1, ← runTicks_stage_of_running hrun, hreply]
      exact stopTick_of_stopping_tick hrun (hreply ▸ hstop)
    rw [htick]
    exact halted_eq_decide hrun (by rw [runTicks_succ_state, ← hreply]; exact hstop) k

/-! ### Whole instructions and a HALT (R178) -/

/-- A machine ready at a HALT runs for two ticks and stops at the third. -/
theorem ticks_of_halt {t : State} (hr : t.Ready) (hp : t.pc.toNat < Config.memSize)
    (hb : t.readByte t.pc.toNat = 0) :
    (∀ j, (ticks j t).halted = decide (3 ≤ j)) ∧
      (ticks 3 t).observe = { t.observe with halted := true } := by
  have hbytes : t.HoldsAt Config.memSize t.pc.toNat [0x00] := by
    refine ⟨hp, fun j hj => ?_⟩
    obtain rfl : j = 0 := Nat.lt_one_iff.1 hj
    exact hb
  obtain ⟨-, h2, hstop⟩ := haltTicks Config.memSize t hr hbytes
  have h3 := congrArg Prod.fst (hstop 3 (le_refl 3))
  exact ⟨halted_eq_decide (by rw [h2]; exact hr.2) (by rw [h3]), congrArg State.observe h3⟩

/-- A completed step is five ticks, after which the run goes on from its end. -/
theorem ticks_of_step {s u : State} (hr : s.Ready) (hstep : step s = .next u) (j : Nat) :
    ticks (5 + j) s = ticks j u := by
  rw [stepIsTheTicksToTheNextFetch s, hr.1, Host.Outcome.next.injEq] at hstep
  rw [← hstep, ticks, runTicks_add]
  rfl

/-- Settles O14: by induction on the number of completed instructions. -/
theorem kInstructionsAndAHaltTakeFiveKPlusThreeTicks :
    Obligations.KInstructionsAndAHaltTakeFiveKPlusThreeTicks := by
  intro k
  induction k with
  | zero =>
    rintro s t ⟨rfl, hr⟩ hp hb
    exact ticks_of_halt hr hp hb
  | succ k ih =>
    rintro s t ⟨hr, u, hstep, hu, hrest⟩ hp hb
    obtain ⟨hhalted, hobserve⟩ := ih u t hrest hp hb
    have hfive : (ticks 5 s).halted = false := by rw [ticks_of_step hr hstep 0]; exact hu.2
    refine ⟨fun j => ?_, ?_⟩
    · rcases Nat.lt_or_ge j 5 with hj | hj
      · rw [decide_eq_false (by omega)]
        exact running_of_le hfive (Nat.le_of_lt hj)
      · obtain ⟨d, rfl⟩ := Nat.exists_eq_add_of_le hj
        rw [ticks_of_step hr hstep, hhalted, decide_eq_decide]
        omega
    · rw [show 5 * (k + 1) + 3 = 5 + (5 * k + 3) by omega, ticks_of_step hr hstep, hobserve]

end Sys2Proof.Machine

/-! Faults: what an instruction that stops the machine leaves unchanged (R148), which fault it
reports (R150), and what a host infers from where it stopped (R152). -/

namespace Sys2Proof.Machine

/-! ### The frame of an instruction that stops -/

/-- A decoded instruction that stops the machine commits nothing (R147, R148, R100), and only HALT
does it without a fault (R146). -/
theorem effect_of_halted {n : Nat} {i : Instr} {s : State} (hrun : s.halted = false)
    (h : (effect n i s).state.halted = true) :
    ∃ t : State, ((i = .halt ∧ effect n i s = .quiet t) ∨ ∃ f v, effect n i s = .raise f v t) ∧
      t.regs = s.regs ∧ t.mem = s.mem ∧ t.pc = s.pc := by
  cases i with
  | halt => exact ⟨_, .inl ⟨rfl, rfl⟩, rfl, rfl, rfl⟩
  | invalid => exact ⟨_, .inr ⟨_, _, rfl⟩, rfl, rfl, rfl⟩
  | nop => exact absurd (hrun.symm.trans h) (by decide)
  | movRr rd rs => exact absurd (hrun.symm.trans h) (by decide)
  | addRr rd rs => exact absurd (hrun.symm.trans h) (by decide)
  | subRr rd rs => exact absurd (hrun.symm.trans h) (by decide)
  | movRm addr rs =>
    by_cases ha : addr.toNat < n
    · exact absurd (((movRmReply_running_iff addr rs hrun).2 ha).symm.trans h) (by decide)
    · exact ⟨_, .inr ⟨_, _, movRm_outside rs s ha⟩, rfl, rfl, rfl⟩
  | movMr rd addr =>
    by_cases ha : addr.toNat < n
    · exact absurd (((movMrReply_running_iff rd addr hrun).2 ha).symm.trans h) (by decide)
    · exact ⟨_, .inr ⟨_, _, movMr_outside rd s ha⟩, rfl, rfl, rfl⟩
  | jmp target =>
    by_cases ht : target.toNat < n
    · exact absurd (((jmpReply_running_iff target hrun).2 ht).symm.trans h) (by decide)
    · exact ⟨_, .inr ⟨_, _, jmp_outside s ht⟩, rfl, rfl, rfl⟩

/-- The same of an instruction at `pc`, whether its bytes decode or not. -/
theorem instruction_of_halted {n : Nat} {s : State} (hr : s.Ready)
    (h : (instruction n s).state.halted = true) :
    ∃ t : State, ((fetchInstr n s = .ok .halt ∧ instruction n s = .quiet t) ∨
        ∃ f v, instruction n s = .raise f v t) ∧
      t.regs = s.regs ∧ t.mem = s.mem ∧ t.pc = s.pc := by
  cases hf : fetchInstr n s with
  | ok i =>
    rw [instruction_of_ok hf] at h ⊢
    rw [Except.ok.injEq]
    exact effect_of_halted hr.2 h
  | error r =>
    rw [instruction_of_error hf]
    obtain ⟨rfl, -⟩ | ⟨d, rfl, -, rfl, -⟩ := runTicks_of_error hr hf
    · exact ⟨_, .inr ⟨_, _, rfl⟩, rfl, rfl, rfl⟩
    · exact ⟨_, .inr ⟨_, _, rfl⟩, rfl, rfl, rfl⟩

theorem instruction_frame_of_halted {n : Nat} {s : State} (hr : s.Ready)
    (h : (instruction n s).state.halted = true) :
    (instruction n s).state.regs = s.regs ∧ (instruction n s).state.mem = s.mem ∧
      (instruction n s).state.pc = s.pc := by
  obtain ⟨t, ⟨-, hi⟩ | ⟨f, v, hi⟩, hframe⟩ := instruction_of_halted hr h <;> rw [hi]
  · exact hframe
  · exact hframe

/-! ### Faults are precise (R148) -/

/-- Nothing is committed before the Memory tick (R72 to R74). -/
theorem runTicks_frame_before_memory {n k : Nat} {s : State} (hr : s.Ready) (hk : k ≤ 3)
    (hrun : (runTicks n k s).1.halted = false) :
    (runTicks n k s).1.regs = s.regs ∧ (runTicks n k s).1.mem = s.mem ∧
      (runTicks n k s).1.pc = s.pc := by
  induction k with
  | zero => exact ⟨rfl, rfl, rfl⟩
  | succ k ih =>
    have hrunk := running_of_le hrun (Nat.le_succ k)
    obtain ⟨hregs, hmem, hpc⟩ := ih (Nat.le_of_succ_le hk) hrunk
    have hearly : ∀ k < 3, Stage.successor^[k] .fetch ≠ .memory ∧
        Stage.successor^[k] .fetch ≠ .writeback := by decide
    have hstage := hearly k hk
    rw [← hr.1, ← runTicks_stage_of_running hrunk] at hstage
    obtain ⟨tmem, tother, -⟩ := eachElementIsWrittenInItsStage n (runTicks n k s).1
    rw [runTicks_succ_state]
    exact ⟨(tother hstage.2).1.trans hregs, (tmem hstage.1).trans hmem,
      (tother hstage.2).2.trans hpc⟩

/-- A fault stops the machine. -/
theorem instruction_halted_of_notice {n : Nat} {s : State} (hr : s.Ready)
    (h : (instruction n s).notice.isSome = true) : (instruction n s).state.halted = true := by
  have hfive := fiveTicksEqualOneInstruction n s hr
  by_contra hrun
  have hquiet := quiet_of_running (n := n) (k := 5) (s := s)
    (by rw [hfive]; exact Bool.eq_false_iff.2 hrun)
  rw [hfive] at hquiet
  simp_all

/-- Settles O23: before the stopping tick only Fetch, Decode, Execute and, for a jump, Memory have
ticked; the stopping tick and all later ones leave what the instruction leaves. -/
theorem faultsArePrecise : Obligations.FaultsArePrecise := by
  intro n k s hr hfault
  have hstop := instruction_halted_of_notice hr hfault
  obtain ⟨m, hm, hrun, hreply⟩ := instruction_eq_stopping_tick hr hstop
  have hframe := instruction_frame_of_halted hr hstop
  rcases Nat.lt_trichotomy k m with hk | rfl | hk
  · exact runTicks_frame_before_memory hr (by omega) (running_of_le hrun (Nat.le_of_lt hk))
  · obtain ⟨x, hx⟩ := Option.isSome_iff_exists.1 hfault
    rw [hreply, faultEntryOnlySetsHalted n _ x (hreply ▸ hx)] at hframe
    exact hframe
  · have hlast : (runTicks n (m + 1) s).1 = (instruction n s).state := by
      rw [runTicks_succ_state, hreply]
    rw [runTicks_stays rfl (hlast ▸ hstop) hk, hlast]
    exact hframe

/-! ### The first defect in stage order (R150) -/

/-- The fault of an instruction by the bytes it was decoded from: a bad index byte before an address
outside memory. -/
theorem effect_fault_decodeOperands (n : Nat) (s : State) {op b1 b2 : Byte} (h7 : op.toNat ≤ 7) :
    (effect n (decodeOperands op b1 b2) s).notice.map Notice.fault =
      if ((op.toNat = 2 ∨ op.toNat = 4 ∨ op.toNat = 5 ∨ op.toNat = 6) ∧ 7 < b1.toNat) ∨
          ((op.toNat = 2 ∨ op.toNat = 3 ∨ op.toNat = 5 ∨ op.toNat = 6) ∧ 7 < b2.toNat) then
        some .invalidOpcode
      else if (op.toNat = 3 ∧ n ≤ b1.toNat) ∨ (op.toNat = 4 ∧ n ≤ b2.toNat) then
        some .dataAddressOutOfRange
      else if op.toNat = 7 ∧ n ≤ b1.toNat then some .jumpTargetOutOfRange
      else none := by
  rw [effect_fault]
  rcases opcode_cases h7 with rfl | rfl | rfl | rfl | rfl | rfl | rfl | rfl
  · rfl
  · rfl
  · rw [decodeOperands_movRr]
    by_cases hbad : b1.toNat > 7 ∨ b2.toNat > 7 <;> simp [hbad, opMovRr]
  · rw [decodeOperands_movRm]
    by_cases hbad : b2.toNat > 7 <;> simp [hbad, opMovRm]
  · rw [decodeOperands_movMr]
    by_cases hbad : b1.toNat > 7 <;> simp [hbad, opMovMr]
  · rw [decodeOperands_addRr]
    by_cases hbad : b1.toNat > 7 ∨ b2.toNat > 7 <;> simp [hbad, opAddRr]
  · rw [decodeOperands_subRr]
    by_cases hbad : b1.toNat > 7 ∨ b2.toNat > 7 <;> simp [hbad, opSubRr]
  · simp [decodeOperands, opHalt, opNop, opMovRr, opMovRm, opMovMr, opAddRr, opSubRr, opJmp]

/-- Settles O24: the four cases of the fetch, and for a decoded instruction its index bytes and its
address. -/
theorem theFirstDefectIsReported : Obligations.TheFirstDefectIsReported := by
  intro n s p b0 b1 b2 len
  by_cases hp : n ≤ p
  · rw [if_pos hp, instruction_of_error (fetchInstr_outside hp)]
    rfl
  rw [if_neg hp]
  by_cases h8 : 8 ≤ b0
  · rw [if_neg (by omega), if_pos (.inl h8),
      instruction_of_ok (fetchInstr_unrecognized (Nat.lt_of_not_le hp) h8)]
    rfl
  have h7 : b0 ≤ 7 := by omega
  have hout : (2 ≤ b0 ∧ b0 ≤ 7 ∧ n ≤ p + len - 1) ↔ n ≤ p + opLength (s.readByte p) - 1 := by
    rw [opLength_eq]
    change _ ↔ n ≤ p + (if b0 = 7 then 2 else if 2 ≤ b0 ∧ b0 ≤ 6 then 3 else 1) - 1
    simp only [len]
    split_ifs <;> omega
  by_cases ho : n ≤ p + opLength (s.readByte p) - 1
  · rw [if_pos (hout.2 ho),
      instruction_of_error (fetchInstr_operandOutside (Nat.lt_of_not_le hp) h7 ho)]
    rfl
  · rw [if_neg (mt hout.1 ho), instruction_of_ok (fetchInstr_inside h7 (Nat.lt_of_not_le ho)),
      effect_fault_decodeOperands n s h7]
    simp only [h8, false_or]
    rfl

/-! ### The cause of a stop, inferred (R152) -/

theorem badIndex_eq (b : Byte) : badIndex b = decide (7 < b.toNat) := by
  rw [badIndex, Bool.eq_iff_iff, Option.isNone_iff_eq_none, regIndex_eq_none_iff,
    decide_eq_true_iff]

/-- The inference at an opcode with operands (R152): an operand byte outside memory, then a bad
index byte, then the address. -/
theorem inferStop_of_operands {n : Nat} {s : State} (hin : s.pc.toNat < n)
    (h2 : 2 ≤ (s.readByte s.pc.toNat).toNat) (h7 : (s.readByte s.pc.toNat).toNat ≤ 7) :
    inferStop n s.observe =
      if n ≤ s.pc.toNat + opLength (s.readByte s.pc.toNat) - 1 then .fault .operandFetchOutOfRange
      else if s.readByte s.pc.toNat = opMovRm then
        if 7 < (s.readByte (s.pc.toNat + 2)).toNat then .fault .invalidOpcode
        else .fault .dataAddressOutOfRange
      else if s.readByte s.pc.toNat = opMovMr then
        if 7 < (s.readByte (s.pc.toNat + 1)).toNat then .fault .invalidOpcode
        else .fault .dataAddressOutOfRange
      else if s.readByte s.pc.toNat = opJmp then .fault .jumpTargetOutOfRange
      else if 7 < (s.readByte (s.pc.toNat + 1)).toNat ∨ 7 < (s.readByte (s.pc.toNat + 2)).toNat then
        .fault .invalidOpcode
      else .notInferable := by
  have hread : ∀ a, s.mem.read a = s.readByte a := fun _ => rfl
  have hhalt : s.readByte s.pc.toNat ≠ opHalt := fun hb => absurd (hb ▸ h2) (by decide)
  have hnop : s.readByte s.pc.toNat ≠ opNop := fun hb => absurd (hb ▸ h2) (by decide)
  have hvalid : ¬ opInvalid ≤ s.readByte s.pc.toNat := fun h8 =>
    absurd (Nat.le_trans h8 h7) (by decide)
  simp [inferStop, inferWhole, hread, inBounds, badIndex_eq, hin, hhalt, hnop, hvalid]

/-- Where the instruction at `pc` faults, its bytes show the fault. -/
theorem inferStop_of_fault {n : Nat} {s : State} {f : FaultName}
    (h : (instruction n s).notice.map Notice.fault = some f) :
    inferStop n s.observe = .fault f := by
  by_cases hp : n ≤ s.pc.toNat
  · rw [instruction_of_error (fetchInstr_outside hp)] at h
    cases h
    exact if_pos (mt (inBounds_iff _ _).1 (Nat.not_lt.2 hp))
  have hin : s.pc.toNat < n := Nat.lt_of_not_le hp
  by_cases h8 : 8 ≤ (s.readByte s.pc.toNat).toNat
  · rw [instruction_of_ok (fetchInstr_unrecognized hin h8)] at h
    cases h
    have hne : s.readByte s.pc.toNat ≠ opHalt := fun hb => absurd (hb ▸ h8) (by decide)
    exact (if_neg (not_not.2 ((inBounds_iff _ _).2 hin))).trans ((if_neg hne).trans (if_pos h8))
  have h7 : (s.readByte s.pc.toNat).toNat ≤ 7 := by omega
  by_cases ho : n ≤ s.pc.toNat + opLength (s.readByte s.pc.toNat) - 1
  · have h2 : 2 ≤ (s.readByte s.pc.toNat).toNat := by
      have hlen := opLength_eq (s.readByte s.pc.toNat)
      split_ifs at hlen <;> omega
    rw [instruction_of_error (fetchInstr_operandOutside hin h7 ho)] at h
    cases h
    rw [inferStop_of_operands hin h2 h7, if_pos ho]
  · rw [instruction_of_ok (fetchInstr_inside h7 (Nat.lt_of_not_le ho)),
      effect_fault_decodeOperands n s h7] at h
    have h2 : 2 ≤ (s.readByte s.pc.toNat).toNat := by
      by_contra hsmall
      rw [if_neg (by omega), if_neg (by omega), if_neg (by omega)] at h
      cases h
    rw [inferStop_of_operands hin h2 h7, if_neg ho]
    rcases opcode_cases h7 with e | e | e | e | e | e | e | e <;> rw [e] at h h2 ⊢
    · exact absurd h2 (by decide)
    · exact absurd h2 (by decide)
    all_goals simp [opMovRr, opMovRm, opMovMr, opAddRr, opSubRr, opJmp] at h ⊢
    · split_ifs at h ⊢ <;> simp_all
    · split_ifs at h ⊢ <;> simp_all
    · split_ifs at h ⊢ <;> simp_all
    · split_ifs at h ⊢ <;> simp_all
    · split_ifs at h ⊢ <;> simp_all
    · exact h.2

/-- The byte at `pc` of a decoded HALT. -/
theorem readByte_of_fetchInstr_halt {n : Nat} {s : State} (h : fetchInstr n s = .ok .halt) :
    s.pc.toNat < n ∧ s.readByte s.pc.toNat = opHalt := by
  rw [fetchInstr_eq] at h
  split_ifs at h with hp hinv ho
  · cases h
  · have h7 : (s.readByte s.pc.toNat).toNat ≤ 7 :=
      Nat.le_of_not_lt fun h8 => hinv (classify_of_ge h8)
    rw [classify_of_le h7, Except.ok.injEq] at h
    obtain hd | hd := decodeOperands_opcode (s.readByte s.pc.toNat) (s.readByte (s.pc.toNat + 1))
      (s.readByte (s.pc.toNat + 2)) <;> rw [h] at hd
    · cases hd
    · exact ⟨hp, hd.symm⟩

/-- The inference reads `pc` and memory only (R152). -/
theorem inferStop_congr (n : Nat) {o o' : Observation} (hpc : o.pc = o'.pc)
    (hmem : o.mem = o'.mem) : inferStop n o = inferStop n o' := by
  obtain ⟨_, _, _, _⟩ := o
  obtain ⟨_, _, _, _⟩ := o'
  subst hpc hmem
  rfl

/-- Settles O25: a stop commits nothing, so the final observation shows the bytes that were
decoded. -/
theorem theCauseOfAStopCanBeInferred : Obligations.TheCauseOfAStopCanBeInferred := by
  intro n s hr h
  obtain ⟨-, hmem, hpc⟩ := instruction_frame_of_halted hr h
  rw [inferStop_congr n (o' := s.observe) hpc hmem]
  obtain ⟨t, ⟨hfetch, hi⟩ | ⟨f, v, hi⟩, -⟩ := instruction_of_halted hr h
  · obtain ⟨hin, hb⟩ := readByte_of_fetchInstr_halt hfetch
    have hhalt : inferStop n s.observe = .haltInstruction := by
      rw [inferStop]
      exact (if_neg (not_not.2 ((inBounds_iff _ _).2 hin))).trans (if_pos hb)
    rw [hi] at h
    rw [hhalt, hi, Reply.stopCause, h]
    rfl
  · rw [inferStop_of_fault (f := f) (by rw [hi]; rfl), hi]
    rfl

end Sys2Proof.Machine

/-! What each instruction leaves at the hardware's size (R100 to R130), the frame of every
instruction (R75, R76), and the laws of the arithmetic (R113). -/

namespace Sys2Proof.Machine

/-! ### HALT, NOP and the Invalid class -/

/-- Settles O26: HALT writes `halted` and hidden elements only. -/
theorem haltStopsInPlace : Obligations.HaltStopsInPlace :=
  fun _ => ⟨_, rfl, rfl, rfl, fun _ => rfl, fun _ => rfl, rfl⟩

/-- Settles O27: NOP writes `pc` and hidden elements only. -/
theorem nopAdvancesPcByOne : Obligations.NopAdvancesPcByOne :=
  fun _ => ⟨_, rfl, rfl, rfl, fun _ => rfl, fun _ => rfl, rfl, rfl⟩

/-- Settles O28: INVALID writes `halted` and hidden elements only. -/
theorem invalidHaltsInPlace : Obligations.InvalidHaltsInPlace :=
  fun _ => ⟨_, rfl, rfl, rfl, fun _ => rfl, fun _ => rfl, rfl, rfl⟩

/-! ### The register instructions -/

/-- Settles O29: the source goes through `scratch` into the destination. -/
theorem movRrCopiesARegister : Obligations.MovRrCopiesARegister := by
  refine fun s rd rs => ⟨(movRrReply rd rs s).state, rfl, ?_, ?_, rfl, rfl, fun r hr => ?_,
    fun _ => rfl⟩
  · rw [readReg_movRrReply, if_pos rfl]
  · exact zext16_toNat _
  · rw [readReg_movRrReply, if_neg hr.symm]

/-- Settles O30: the destination is the low byte of the unreduced sum in `scratch`. -/
theorem addRrAddsModulo256 : Obligations.AddRrAddsModulo256 := by
  refine fun s rd rs => ⟨(addRrReply rd rs s).state, rfl, ?_, ?_, rfl, rfl, fun r hr => ?_,
    fun _ => rfl⟩
  · rw [readReg_addRrReply, if_pos rfl, lowByte_toNat, aluAdd_toNat]
  · exact aluAdd_toNat _ _
  · rw [readReg_addRrReply, if_neg hr.symm]

/-- Settles O31: the destination is the low byte of the 16-bit difference in `scratch`. -/
theorem subRrSubtractsModulo256 : Obligations.SubRrSubtractsModulo256 := by
  intro s rd rs
  have hd := (s.readReg rd).isLt
  have hs := (s.readReg rs).isLt
  have hdiff := aluSub_toNat (s.readReg rd) (s.readReg rs)
  refine ⟨(subRrReply rd rs s).state, rfl, ?_, ?_, rfl, rfl, fun r hr => ?_, fun _ => rfl⟩
  · rw [readReg_subRrReply, if_pos rfl, lowByte_toNat, hdiff]
    omega
  · change ((aluSub _ _).toNat : Int) = _
    rw [hdiff]
    omega
  · rw [readReg_subRrReply, if_neg hr.symm]

/-! ### The store, the load and the jump: at 256 bytes every address is inside (R39) -/

theorem effect_movRm_at_memSize (addr : Byte) (rs : RegIdx) (s : State) :
    effect Config.memSize (.movRm addr rs) s =
      .quiet ((((s.capture (inflightOf (.movRm addr rs))).storeByte addr.toNat
        (s.readReg rs)).advancePc 3).goTo .fetch) :=
  movRm_inside rs s addr.isLt

theorem effect_movMr_at_memSize (rd : RegIdx) (addr : Byte) (s : State) :
    effect Config.memSize (.movMr rd addr) s =
      .quiet (((((s.capture (inflightOf (.movMr rd addr))).setScratch
        (zext16 (s.readByte addr.toNat))).commit rd).advancePc 3).goTo .fetch) :=
  movMr_inside rd s addr.isLt

theorem effect_jmp_at_memSize (target : Byte) (s : State) :
    effect Config.memSize (.jmp target) s =
      .quiet ((((s.capture (inflightOf (.jmp target))).setScratch (zext16 target)).setPc
        (zext16 target)).goTo .fetch) :=
  jmp_inside s target.isLt

/-- Settles O32: a byte stored in a canonical memory reads back, and the others keep theirs. -/
theorem movRmStoresOneByte : Obligations.MovRmStoresOneByte := by
  intro s addr rs hmem
  rw [exec_eq_effect, effect_movRm_at_memSize, effectiveAddress_eq]
  exact ⟨_, rfl, State.readByte_storeByte_same (s := s) hmem _ _,
    fun a ha => State.readByte_storeByte_other (s := s) hmem _ ha, rfl, rfl, rfl, fun _ => rfl, rfl⟩

/-- Settles O33: the loaded byte goes zero-extended through `scratch`. -/
theorem movMrLoadsOneByte : Obligations.MovMrLoadsOneByte := by
  intro s rd addr
  rw [exec_eq_effect, effect_movMr_at_memSize]
  refine ⟨_, rfl, ?_, zext16_toNat _, rfl, rfl, fun r hr => ?_, fun _ => rfl⟩
  · simp [State.readReg_commit]
  · simp [State.readReg_commit, hr.symm]

/-- Settles O34: the target goes through `scratch` into `pc`. -/
theorem jmpSetsPcToTheTarget : Obligations.JmpSetsPcToTheTarget := by
  intro s target
  rw [exec_eq_effect, effect_jmp_at_memSize]
  exact ⟨_, rfl, zext16_toNat target, zext16_toNat target, rfl, fun _ => rfl, fun _ => rfl⟩

/-! ### The frame of every instruction -/

/-- At 256 bytes only HALT and the Invalid class write `halted` (R39, R100, R102). -/
theorem effect_halted_at_memSize (i : Instr) (s : State) :
    (effect Config.memSize i s).state.halted = s.halted ∨ i = .halt ∨ i = .invalid := by
  cases i with
  | halt => exact .inr (.inl rfl)
  | invalid => exact .inr (.inr rfl)
  | movRm addr rs => exact .inl (by rw [effect_movRm_at_memSize]; rfl)
  | movMr rd addr => exact .inl (by rw [effect_movMr_at_memSize]; rfl)
  | jmp target => exact .inl (by rw [effect_jmp_at_memSize]; rfl)
  | _ => exact .inl rfl

/-- Settles O35: what `effect` writes to memory, to registers and to `halted`. -/
theorem onlyTheNamedPlacesChange : Obligations.OnlyTheNamedPlacesChange := by
  intro i s t h
  rw [exec_eq_effect, Host.Outcome.next.injEq] at h
  subst h
  refine ⟨fun hne => ?_, fun r hne => ?_, fun hne => ?_⟩
  · obtain hmem | ⟨addr, rs, hi, -, hmem⟩ := effect_mem Config.memSize i s
    · exact absurd hmem hne
    · exact ⟨addr, rs, hi, hmem⟩
  · obtain hregs | ⟨rd, v, hregs, hi⟩ := effect_regs Config.memSize i s
    · exact absurd (congrArg (fun regs : Vector Byte 8 => regs[r.toNat]) hregs) hne
    · have hread : (effect Config.memSize i s).state.readReg r = (s.writeReg rd v).readReg r :=
        congrArg (fun regs : Vector Byte 8 => regs[r.toNat]) hregs
      have hrd : rd = r := by
        by_contra hother
        exact hne (hread.trans (State.readReg_writeReg_other s rd r v (Ne.symm hother)))
      exact hrd ▸ hi
  · exact (effect_halted_at_memSize i s).resolve_left hne

/-! ### The laws of the arithmetic -/

/-- Subtracting the byte that was added gives the first byte back (R113). -/
theorem lowByte_aluSub_aluAdd (a b : Byte) : lowByte (aluSub (lowByte (aluAdd a b)) b) = a := by
  have ha := a.isLt
  have hb := b.isLt
  apply BitVec.eq_of_toNat_eq
  rw [lowByte_toNat, aluSub_toNat, lowByte_toNat, aluAdd_toNat]
  omega

/-- Settles O37: the results of ADD_RR and SUB_RR as integers, and one after the other. -/
theorem arithmeticWrapsModulo256 : Obligations.ArithmeticWrapsModulo256 := by
  refine ⟨fun s t rd rs h => ?_, fun s t rd rs h => ?_, fun s t u rd rs hne ht hu => ?_⟩
  · have ha := (s.readReg rd).isLt
    have hb := (s.readReg rs).isLt
    obtain ⟨t', ht', hsum, hscratch, -⟩ := addRrAddsModulo256 s rd rs
    obtain rfl : t' = t := Host.Outcome.next.inj (ht'.symm.trans h)
    refine ⟨?_, by omega⟩
    split_ifs <;> omega
  · have ha := (s.readReg rd).isLt
    have hb := (s.readReg rs).isLt
    obtain ⟨t', ht', hdiff, hscratch, -⟩ := subRrSubtractsModulo256 s rd rs
    obtain rfl : t' = t := Host.Outcome.next.inj (ht'.symm.trans h)
    refine ⟨?_, by omega⟩
    split_ifs <;> omega
  · obtain rfl : (addRrReply rd rs s).state = t := Host.Outcome.next.inj ht
    obtain rfl : (subRrReply rd rs _).state = u := Host.Outcome.next.inj hu
    rw [readReg_subRrReply, if_pos rfl, readReg_addRrReply, if_pos rfl, readReg_addRrReply,
      if_neg hne, lowByte_aluSub_aluAdd]

end Sys2Proof.Machine

/-! Hidden state never shows (R25): two machines that agree on what `observe` shows, and on the
hidden elements a later tick still reads, agree so after every tick. -/

namespace Sys2Proof.Machine

/-- The opcodes whose Writeback reads `scratch` (R76, R83). -/
def usesScratch (op : Byte) : Prop := op = opJmp ∨ writesRegister op = true

/-! ### Each stage's cases, by their conditions (R74 to R76) -/

theorem executeStage_halt {s : State} (h0 : s.inflight.op = opHalt) :
    executeStage s = .quiet (s.halt.goTo .memory) := by
  rw [executeStage, if_pos h0]

theorem executeStage_invalid {s : State} (h0 : s.inflight.op ≠ opHalt)
    (h8 : isInvalidOp s.inflight.op = true) : executeStage s =
      .raise .invalidOpcode (s.readByte s.pc.toNat).toNat (s.goTo .memory) := by
  rw [executeStage, if_neg h0, if_pos h8]

section
variable {s : State} (h0 : s.inflight.op ≠ opHalt) (h8 : ¬ isInvalidOp s.inflight.op = true)
include h0 h8

theorem executeStage_some {v : Wide}
    (hv : alu s.inflight.op (s.readReg s.inflight.rd) (s.readReg s.inflight.rs) s.inflight.imm =
      some v) :
    executeStage s = .quiet ((s.setScratch v).goTo .memory) := by
  rw [executeStage, if_neg h0, if_neg h8, hv]

theorem executeStage_none
    (hv : alu s.inflight.op (s.readReg s.inflight.rd) (s.readReg s.inflight.rs) s.inflight.imm =
      none) :
    executeStage s = .quiet (s.goTo .memory) := by
  rw [executeStage, if_neg h0, if_neg h8, hv]

end

theorem memoryStage_store {n : Nat} {s : State} (hop : s.inflight.op = opMovRm)
    (ha : s.inflight.imm.toNat < n) : memoryStage n s =
      .quiet ((s.storeByte s.inflight.imm.toNat (s.readReg s.inflight.rs)).goTo .writeback) := by
  simp [memoryStage, inBounds, hop, ha]

theorem memoryStage_load {n : Nat} {s : State} (hop : s.inflight.op = opMovMr)
    (ha : s.inflight.imm.toNat < n) : memoryStage n s =
      .quiet ((s.setScratch (zext16 (s.readByte s.inflight.imm.toNat))).goTo .writeback) := by
  have hne : opMovMr ≠ opMovRm := by decide
  simp [memoryStage, inBounds, hop, hne, ha]

theorem memoryStage_fault {n : Nat} {s : State}
    (hop : s.inflight.op = opMovRm ∨ s.inflight.op = opMovMr) (ha : ¬ s.inflight.imm.toNat < n) :
    memoryStage n s = .raise .dataAddressOutOfRange s.inflight.imm.toNat s := by
  obtain hop | hop := hop <;> simp [memoryStage, inBounds, hop, ha]

theorem memoryStage_other {n : Nat} {s : State}
    (hop : ¬ (s.inflight.op = opMovRm ∨ s.inflight.op = opMovMr)) :
    memoryStage n s = .quiet (s.goTo .writeback) := by
  simp [memoryStage, not_or.1 hop]

/-- Writeback of an opcode that does not use `scratch` only advances `pc`. -/
theorem writebackStage_dead {n : Nat} {s : State} (hu : ¬ usesScratch s.inflight.op) :
    writebackStage n s = .quiet ((s.advancePc (opLength s.inflight.op)).goTo .fetch) := by
  obtain ⟨hjmp, hreg⟩ := not_or.1 hu
  simp [writebackStage, hjmp, hreg]

/-! ### The agreement -/

/-- The instruction under way still reads what stands in `scratch`: at Writeback, and at Memory
unless it is a load, whose Memory tick writes `scratch` first (R75). -/
def State.scratchLive (s : State) : Prop :=
  usesScratch s.inflight.op ∧
    (s.stage = .writeback ∨ s.stage = .memory ∧ s.inflight.op ≠ opMovMr)

/-- Two machines that nothing observed now or later tells apart. -/
inductive State.Agree : State → State → Prop where
  /-- Halted, so that no later tick reads a hidden element. -/
  | stopped {s t : State} (hs : s.halted = true) (h : s.observe = t.observe) : Agree s t
  /-- At Fetch, which resets `inflight` and does not read `scratch` (R72). -/
  | between {s : State} (i : Inflight) (c : Wide) (hs : s.stage = .fetch) :
    Agree s ((s.capture i).setScratch c)
  /-- At another stage, with `scratch` alike where it is still read. -/
  | underWay {s : State} (c : Wide) (hs : s.stage ≠ .fetch) (hc : s.scratchLive → c = s.scratch) :
    Agree s (s.setScratch c)

theorem State.Agree.refl (s : State) : s.Agree s := by
  by_cases hs : s.stage = .fetch
  · exact .between s.inflight s.scratch hs
  · exact .underWay s.scratch hs fun _ => rfl

theorem State.Agree.observe_eq {s t : State} (h : s.Agree t) : s.observe = t.observe := by
  cases h with
  | stopped _ h => exact h
  | between => rfl
  | underWay => rfl

/-- Machines at Fetch that observe alike agree. -/
theorem State.Agree.of_observe {s t : State} (hs : s.stage = .fetch) (ht : t.stage = .fetch)
    (h : s.observe = t.observe) : s.Agree t := by
  obtain ⟨hregs, hpc, hmem, hhalted⟩ := (State.observe_eq_iff s t).1 h
  have he : t = (s.capture t.inflight).setScratch t.scratch := by
    cases s
    cases t
    simp_all [State.capture, State.setScratch]
  rw [he]
  exact .between _ _ hs

/-- Replies with agreeing states and the same notification. -/
def Reply.Agree (r r' : Reply) : Prop := r.state.Agree r'.state ∧ r.notice = r'.notice

theorem Reply.Agree.refl (r : Reply) : r.Agree r := ⟨.refl _, rfl⟩

theorem Reply.Agree.raise (f : FaultName) (v : Nat) {s t : State} (h : s.observe = t.observe) :
    (Reply.raise f v s).Agree (.raise f v t) := by
  obtain ⟨hregs, hpc, hmem, -⟩ := (State.observe_eq_iff s t).1 h
  exact ⟨.stopped rfl ((State.observe_eq_iff _ _).2 ⟨hregs, hpc, hmem, rfl⟩), rfl⟩

/-! ### Each stage keeps the agreement -/

theorem fetchStage_agree (n : Nat) (s : State) (i : Inflight) (c : Wide) :
    (fetchStage n s).Agree (fetchStage n ((s.capture i).setScratch c)) := by
  by_cases hp : s.pc.toNat < n
  · rw [fetchStage_inside hp, fetchStage_inside (s := (s.capture i).setScratch c) hp]
    exact ⟨.underWay c nofun (by simp [State.scratchLive]), rfl⟩
  · rw [fetchStage_outside hp, fetchStage_outside (s := (s.capture i).setScratch c) hp]
    exact .raise _ _ rfl

theorem decodeStage_agree (n : Nat) (s : State) (c : Wide) :
    (decodeStage n s).Agree (decodeStage n (s.setScratch c)) := by
  by_cases hc : classify s.inflight.op = opInvalid
  · rw [decodeStage_invalid hc, decodeStage_invalid (s := s.setScratch c) hc]
    exact ⟨.underWay c nofun (by simp [State.scratchLive]), rfl⟩
  by_cases ho : operandsInBounds n s.pc (opLength (classify s.inflight.op)) = true
  · rw [decodeStage_valid hc ho, decodeStage_valid (s := s.setScratch c) hc ho]
    exact ⟨.underWay c nofun (by simp [State.scratchLive]), rfl⟩
  · rw [decodeStage_fault hc ho, decodeStage_fault (s := s.setScratch c) hc ho]
    exact .raise _ _ rfl

/-- Of the opcodes for which the ALU gives nothing only MOV_MR uses `scratch` (R82, R83). -/
theorem not_usesScratch_of_alu_none {op a b imm : Byte} (h : alu op a b imm = none)
    (hop : op ≠ opMovMr) : ¬ usesScratch op := by
  unfold alu at h
  split_ifs at h with h1 h2 h3 h4
  simp [usesScratch, writesRegister, h1, h2, h3, h4, hop]

theorem executeStage_agree (s : State) (c : Wide) :
    (executeStage s).Agree (executeStage (s.setScratch c)) := by
  by_cases h0 : s.inflight.op = opHalt
  · rw [executeStage_halt h0, executeStage_halt (s := s.setScratch c) h0]
    exact ⟨.stopped rfl rfl, rfl⟩
  by_cases h8 : isInvalidOp s.inflight.op = true
  · rw [executeStage_invalid h0 h8, executeStage_invalid (s := s.setScratch c) h0 h8]
    exact .raise _ _ rfl
  cases hv : alu s.inflight.op (s.readReg s.inflight.rd) (s.readReg s.inflight.rs) s.inflight.imm with
  | some v =>
    rw [executeStage_some h0 h8 hv, executeStage_some (s := s.setScratch c) h0 h8 hv]
    exact .refl _
  | none =>
    rw [executeStage_none h0 h8 hv, executeStage_none (s := s.setScratch c) h0 h8 hv]
    refine ⟨.underWay c nofun fun hlive => ?_, rfl⟩
    obtain ⟨huse, hwb | ⟨-, hop⟩⟩ := hlive
    · cases hwb
    · exact absurd huse (not_usesScratch_of_alu_none hv hop)

theorem memoryStage_agree (n : Nat) (s : State) (c : Wide) (hs : s.stage = .memory)
    (hc : s.scratchLive → c = s.scratch) :
    (memoryStage n s).Agree (memoryStage n (s.setScratch c)) := by
  by_cases hm : s.inflight.op = opMovRm ∨ s.inflight.op = opMovMr
  · by_cases ha : s.inflight.imm.toNat < n
    · obtain hop | hop := hm
      · rw [memoryStage_store hop ha, memoryStage_store (s := s.setScratch c) hop ha]
        have hdead : ¬ usesScratch s.inflight.op := by
          rw [hop]
          exact (by decide : ¬ (opMovRm = opJmp ∨ writesRegister opMovRm = true))
        exact ⟨.underWay c nofun fun hlive => absurd hlive.1 hdead, rfl⟩
      · rw [memoryStage_load hop ha, memoryStage_load (s := s.setScratch c) hop ha]
        exact .refl _
    · rw [memoryStage_fault hm ha, memoryStage_fault (s := s.setScratch c) hm ha]
      exact .raise _ _ rfl
  · rw [memoryStage_other hm, memoryStage_other (s := s.setScratch c) hm]
    exact ⟨.underWay c nofun fun hlive => hc ⟨hlive.1, .inr ⟨hs, fun hop => hm (.inr hop)⟩⟩, rfl⟩

theorem writebackStage_agree (n : Nat) (s : State) (c : Wide) (hs : s.stage = .writeback)
    (hc : s.scratchLive → c = s.scratch) :
    (writebackStage n s).Agree (writebackStage n (s.setScratch c)) := by
  by_cases hu : usesScratch s.inflight.op
  · rw [hc ⟨hu, .inl hs⟩]
    exact .refl _
  · rw [writebackStage_dead hu, writebackStage_dead (s := s.setScratch c) hu]
    exact ⟨.between s.inflight c rfl, rfl⟩

/-! ### Every tick and every run keeps it -/

theorem tickReply_agree (n : Nat) {s t : State} (h : s.Agree t) :
    (tickReply n s).Agree (tickReply n t) := by
  have hhalted : s.halted = t.halted := congrArg Observation.halted h.observe_eq
  cases hh : s.halted with
  | true =>
    rw [tickReply_halted hh, tickReply_halted (hhalted ▸ hh)]
    exact ⟨h, rfl⟩
  | false =>
    cases h with
    | stopped hs => exact absurd (hh.symm.trans hs) (by decide)
    | between i c hs =>
      rw [tickReply_fetch hh hs, tickReply_fetch (s := (s.capture i).setScratch c) hh hs]
      exact fetchStage_agree n s i c
    | underWay c hs hc =>
      cases hst : s.stage with
      | fetch => exact absurd hst hs
      | decode =>
        rw [tickReply_decode hh hst, tickReply_decode (s := s.setScratch c) hh hst]
        exact decodeStage_agree n s c
      | execute =>
        rw [tickReply_execute hh hst, tickReply_execute (s := s.setScratch c) hh hst]
        exact executeStage_agree s c
      | memory =>
        rw [tickReply_memory hh hst, tickReply_memory (s := s.setScratch c) hh hst]
        exact memoryStage_agree n s c hst hc
      | writeback =>
        rw [tickReply_writeback hh hst, tickReply_writeback (s := s.setScratch c) hh hst]
        exact writebackStage_agree n s c hst hc

theorem runTicks_agree (n k : Nat) {s t : State} (h : s.Agree t) :
    (runTicks n k s).1.Agree (runTicks n k t).1 ∧ (runTicks n k s).2 = (runTicks n k t).2 := by
  induction k with
  | zero => exact ⟨h, rfl⟩
  | succ k ih =>
    obtain ⟨hstate, hnotices⟩ := ih
    obtain ⟨htick, hnotice⟩ := tickReply_agree n hstate
    rw [runTicks_then rfl rfl, runTicks_then (s := t) rfl rfl, hnotices, hnotice]
    exact ⟨htick, rfl⟩

/-- Settles O46: machines at Fetch that observe alike agree, and agreement is kept. -/
theorem hiddenStateNeverShows : Obligations.HiddenStateNeverShows := by
  intro n k s t hs ht h
  obtain ⟨hstate, hnotices⟩ := runTicks_agree n k (.of_observe hs ht h)
  exact ⟨hstate.observe_eq, hnotices⟩

end Sys2Proof.Machine

/-! Bytes and registers that the host or a store puts in place: the next fetch sees a store (R43),
the last value loaded counts (R173), a loaded program's registers and the rest of its memory (R63,
R68), and a placed instruction runs next. -/

namespace Sys2Proof.Machine

/-! ### A store and the next fetch -/

/-- A one-byte instruction at `pc` inside memory is what the next step runs. -/
theorem step_of_byte {t : State} {i : Instr} {b : Byte} (hr : t.Ready)
    (hp : t.pc.toNat < Config.memSize) (hb : t.readByte t.pc.toNat = b) (hd : decode [b] = .ok i) :
    step t = exec i t := by
  refine step_of_fetchInstr hr (fetchInstr_of_holdsAt (bytes := [b]) ⟨hp, fun j hj => ?_⟩ hd)
  obtain rfl : j = 0 := Nat.lt_one_iff.1 hj
  exact hb

/-- Settles O45: the step is `exec` of the store, after which the stored byte is read at its
address, also when that is the new `pc`. -/
theorem aStoreChangesTheInstructionFetchedNext :
    Obligations.AStoreChangesTheInstructionFetchedNext := by
  intro s addr rs hr hmem hbytes
  have hinside : s.pc.toNat + 3 ≤ 256 := hbytes.1
  obtain ⟨t, hstep, hready, hpc, hread⟩ : ∃ t, step s = .next t ∧ t.Ready ∧ t.pc = s.pc + 3 ∧
      t.readByte addr.toNat = s.readReg rs := by
    rw [step_of_fetchInstr hr (fetchInstr_of_holdsAt hbytes (decode_encode (.movRm addr rs))),
      exec_eq_effect, effect_movRm_at_memSize]
    exact ⟨_, rfl, ⟨rfl, hr.2⟩, rfl, State.readByte_storeByte_same (s := s) hmem _ _⟩
  have hadvance : t.pc.toNat = s.pc.toNat + 3 := by
    rw [hpc, BitVec.toNat_add]
    exact Nat.mod_eq_of_lt (by change s.pc.toNat + 3 < 65536; omega)
  refine ⟨t, hstep, hready, hadvance, hread, fun hnext => ?_⟩
  rw [hnext, ← hadvance] at hread
  have hin : t.pc.toNat < Config.memSize := hadvance ▸ hnext ▸ addr.isLt
  exact ⟨fun hv => step_of_byte hready hin (hread.trans hv) rfl,
    fun hv => step_of_byte hready hin (hread.trans hv) rfl,
    fun hv => step_of_byte hready hin hread (decode_unrecognized hv)⟩

/-! ### Loading bytes and registers -/

/-- The last value that a list gives for a key, or else `d`, one entry at a time. -/
theorem lastValue_cons {α β : Type} (p : α × β → Bool) (e : α × β) (l : List (α × β)) (d : β) :
    (((e :: l).reverse.find? p).map Prod.snd).getD d =
      ((l.reverse.find? p).map Prod.snd).getD (if p e then e.2 else d) := by
  rw [List.reverse_cons, List.find?_append]
  cases l.reverse.find? p with
  | some x => simp
  | none => by_cases he : p e <;> simp [he]

theorem State.readByte_loadBytes (image : List (Byte × Byte)) {s : State} (h : s.mem.wf = true)
    (a : Nat) : (s.loadBytes image).readByte a =
      ((image.reverse.find? fun p => p.1.toNat = a).map Prod.snd).getD (s.readByte a) := by
  induction image generalizing s with
  | nil => rfl
  | cons e rest ih =>
    rw [State.loadBytes, ih (s := s.storeByte e.1.toNat e.2) (Memory.write_wfAt e.2 h e.1.isLt),
      lastValue_cons, State.readByte_storeByte h]
    simp [eq_comm]

theorem State.readReg_loadRegs (values : List (RegIdx × Byte)) (s : State) (r : RegIdx) :
    (s.loadRegs values).readReg r =
      ((values.reverse.find? fun p => p.1 = r).map Prod.snd).getD (s.readReg r) := by
  induction values generalizing s with
  | nil => rfl
  | cons e rest ih =>
    rw [State.loadRegs, ih, lastValue_cons, State.readReg_writeReg]
    simp

/-- Settles O49: bytes and registers are loaded one after the other, each over what stood there. -/
theorem loadSetsWhatItNames : Obligations.LoadSetsWhatItNames := by
  intro s image values hmem t
  obtain ⟨-, bhalted, bstage, binflight, bscratch, bregs⟩ := State.loadBytes_frame image s hmem
  obtain ⟨rmem, rhalted, rstage, rinflight, rscratch⟩ :=
    State.loadRegs_frame values (s.loadBytes image)
  refine ⟨fun a => ?_, fun r => ?_, rfl, rhalted.trans bhalted, rstage.trans bstage,
    rinflight.trans binflight, rscratch.trans bscratch⟩
  · rw [← State.readByte_loadBytes image hmem a]
    exact congrArg (Memory.read · a) rmem
  · have hreg : (s.loadBytes image).readReg r = s.readReg r :=
      congrArg (fun regs : Vector Byte 8 => regs[r.toNat]) bregs
    rw [← hreg]
    exact State.readReg_loadRegs values _ r

/-! ### A loaded program -/

theorem State.loadRegs_append (xs ys : List (RegIdx × Byte)) (s : State) :
    s.loadRegs (xs ++ ys) = (s.loadRegs xs).loadRegs ys := by
  induction xs generalizing s with
  | nil => rfl
  | cons e rest ih => exact ih _

/-- What one line of an accepted program does to a register (R63). -/
theorem readReg_lineRegs {l : Line} (hl : l.wf = true) (s : State) (r : RegIdx) :
    ((s.loadRegs (lineRegs l)).readReg r).toNat = (initialiserOf r l).getD (s.readReg r).toNat := by
  cases l with
  | ignored => rfl
  | instr mnemonic operands => rfl
  | init reg value =>
    rw [Line.wf, Bool.and_eq_true] at hl
    have hreg : reg < 2 ^ 3 := of_decide_eq_true hl.1
    have hvalue : value < 2 ^ 8 := of_decide_eq_true hl.2
    have hkey : BitVec.ofNat 3 reg = r ↔ reg = r.toNat := by
      rw [← BitVec.toNat_inj, BitVec.toNat_ofNat, Nat.mod_eq_of_lt hreg]
    rw [lineRegs, State.loadRegs, State.loadRegs, State.readReg_writeReg, initialiserOf]
    by_cases hr : reg = r.toNat
    · rw [if_pos (hkey.2 hr), if_pos hr, BitVec.toNat_ofNat, Nat.mod_eq_of_lt hvalue,
        Option.getD_some]
    · rw [if_neg (mt hkey.1 hr), if_neg hr, Option.getD_none]

/-- The registers after the initialisers of a program, the last of several counting. -/
theorem readReg_programRegs {p : List Line} (hp : ∀ l ∈ p, l.wf = true) (s : State) (r : RegIdx) :
    ((s.loadRegs (programRegs p)).readReg r).toNat =
      (p.reverse.findSome? (initialiserOf r)).getD (s.readReg r).toNat := by
  induction p generalizing s with
  | nil => rfl
  | cons l rest ih =>
    rw [programRegs, List.flatMap_cons, State.loadRegs_append]
    refine (ih (fun l' hl' => hp l' (List.mem_cons_of_mem l hl')) _).trans ?_
    rw [readReg_lineRegs (hp l List.mem_cons_self), List.reverse_cons, List.findSome?_append]
    cases rest.reverse.findSome? (initialiserOf r) <;> simp

/-- Storing bytes at ascending addresses touches nothing above them. -/
theorem State.readByte_storeBytes_above (bytes : List Byte) {a x : Nat} {s : State}
    (h : s.mem.wf = true) (hl : a + bytes.length ≤ 256) (hx : a + bytes.length ≤ x) :
    (s.storeBytes a bytes).readByte x = s.readByte x := by
  induction bytes generalizing a s with
  | nil => rfl
  | cons b rest ih =>
    rw [List.length_cons] at hl hx
    have ha : a < Config.memSize := show a < 256 by omega
    rw [State.storeBytes, ih (s := s.storeByte a b) (Memory.write_wfAt b h ha) (by omega)
      (by omega)]
    exact State.readByte_storeByte_other h b (by omega)

/-- What the loader accepts is well formed line by line. -/
theorem wf_of_loadProgram {p : List Line} {s : State} (h : loadProgram p = some s) :
    ∀ l ∈ p, l.wf = true := by
  unfold loadProgram at h
  split_ifs at h with hok
  rw [Bool.and_eq_true] at hok
  exact List.all_eq_true.1 hok.1

/-- Settles O54: registers and bytes of the launch state of an accepted program. -/
theorem loadedProgramsSetRegistersAndLeaveTheRestZero :
    Obligations.LoadedProgramsSetRegistersAndLeaveTheRestZero := by
  intro p s hload
  have hwf := wf_of_loadProgram hload
  obtain ⟨hfits, rfl⟩ := loadProgram_eq_some hload
  have hlen : 0 + (programBytes p).length ≤ 256 := (Nat.zero_add _).symm ▸ hfits
  refine ⟨fun r => ?_, fun a ha => ?_⟩
  · have hzero : (State.reset.loadBytes (imageFrom 0 (programBytes p))).readReg r = 0 := by
      obtain ⟨-, -, -, -, -, hregs⟩ :=
        State.loadBytes_frame (imageFrom 0 (programBytes p)) State.reset (Memory.wfAt_nil _)
      obtain ⟨-, -, hreset, -⟩ := resetValues State.reset
      exact (congrArg (fun regs : Vector Byte 8 => regs[r.toNat]) hregs).trans (hreset r)
    refine (readReg_programRegs hwf _ r).trans ?_
    rw [hzero]
    rfl
  · rw [← programBytes_length, ← Nat.zero_add (programBytes p).length] at ha
    rw [launch_readByte, State.loadBytes_imageFrom _ hlen,
      State.readByte_storeBytes_above _ (s := State.reset) (Memory.wfAt_nil _) hlen ha]
    rfl

/-! ### A placed instruction -/

/-- Three bytes from the placement address lie inside memory. -/
theorem placementAddress_le (s : State) : placementAddress s + 3 ≤ 256 := by
  unfold placementAddress
  split_ifs with h
  · exact h
  · decide

theorem decode_of_decodeTableWord {nbits w : Nat} {i : Instr}
    (h : decodeTableWord nbits w = some i) : decode (tableBytes nbits w) = .ok i := by
  unfold decodeTableWord at h
  split at h
  · rename_i j hj
    rw [hj, Option.some.inj h]
  · cases h

/-- Placed bytes stand where the next step fetches. -/
theorem placeInstr_holdsAt {s : State} {bytes : List Byte} (h : s.mem.wf = true)
    (hlen : bytes.length = 3) :
    (placeInstr s bytes).HoldsAt Config.memSize (placeInstr s bytes).pc.toNat bytes := by
  have ha := placementAddress_le s
  have hpc : (placeInstr s bytes).pc.toNat = placementAddress s := by
    change (BitVec.ofNat 16 (placementAddress s)).toNat = _
    rw [BitVec.toNat_ofNat]
    omega
  rw [← hlen] at ha
  obtain ⟨-, hread, -⟩ := State.storeBytes_read bytes (placementAddress s) s h ha
  rw [hpc]
  exact ⟨ha, hread⟩

/-- Settles O51: the placed bytes stand at the new `pc`, and the machine there is ready. -/
theorem aPlacedInstructionRunsNext : Obligations.APlacedInstructionRunsNext := by
  intro s nbits w i hmem hd
  exact step_of_fetchInstr ⟨rfl, rfl⟩
    (fetchInstr_of_holdsAt (placeInstr_holdsAt hmem rfl) (decode_of_decodeTableWord hd))

end Sys2Proof.Machine
